-- ==== Sys2Proof/Word.lean ====
section
/-! DEFINITION. The machine's words and the readings of a word as a number (00_scope.md R8, R19). -/

namespace Sys2Proof

/-- One byte of the memory window (20_memory.md R44). -/
abbrev Byte := BitVec 8

/-- A 64-bit word: a register, the pc, an address, an immediate, a quad (00_scope.md R8, R19). -/
abbrev Word := BitVec 64

/-- `u64(v)`: the word read as an unsigned integer (00_scope.md R19). -/
abbrev u64 (v : Word) : Nat := v.toNat

/-- `s64(v)`: the word read as a two's-complement integer (00_scope.md R19). -/
abbrev s64 (v : Word) : Int := v.toInt

/-- `to64(n)`: the word whose unsigned value is `n mod 2^64`, for any integer n (00_scope.md R19). -/
abbrev to64 (n : Int) : Word := BitVec.ofInt 64 n

end Sys2Proof
end

