-- ==== Sys2Proof/Config.lean ====
section
/-! DEFINITION. The two behaviour parameters of the block (00_scope.md R11), and the values State.reset
takes for the inputs that the spec leaves to the model (00_scope.md R9, R10). -/

namespace Sys2Proof.Config

/-- HALT_PC_POLICY (00_scope.md R11, 40_execute_common.md R87): does a control transfer still write the
pc while the halted latch is set? -/
inductive HaltPcPolicy where
  /-- "PC frozen": no instruction writes the pc while H = 1. -/
  | freezeAll
  /-- Only the advance is frozen: jumps, call and ret still write the pc. -/
  | freezeAdvanceOnly
deriving DecidableEq, Repr

/-- MODQ_BOTHZERO_FLAGS (00_scope.md R11, 43_alu.md R99): what a MOD_BOTH_ZERO fault does to S and O. -/
inductive ModqBothZeroFlags where
  /-- Z is set, S and O stay. -/
  | setZKeepOthers
  /-- Z is set, S and O are cleared. -/
  | zOnly
deriving DecidableEq, Repr

/-- The spec's default of HALT_PC_POLICY (00_scope.md R11). -/
def haltPcPolicy : HaltPcPolicy := .freezeAll

/-- The spec's default of MODQ_BOTHZERO_FLAGS (00_scope.md R11). -/
def modqBothZeroFlags : ModqBothZeroFlags := .setZKeepOthers

/-- START_ADDR of State.reset. DESIGN CHOICE (log 8), unsafe: R9 makes it an input. -/
def startAddr : Word := 0

/-- VALID_MEM of State.reset. DESIGN CHOICE (log 8), unsafe: R9 gives 1024 as an example only. -/
def validMem : Word := 1024

/-- MEM_CAPACITY of State.reset. DESIGN CHOICE (log 8), unsafe: R9 gives 1024 as an example only. -/
def memCapacity : Nat := 1024

/-- Every entry of RESET_REGS in State.reset. DESIGN CHOICE (log 5), unsafe: R10 makes it an input. -/
def resetReg : Word := 0

/-- RESET_PC of State.reset. DESIGN CHOICE (log 6), unsafe: R10 makes it an input. -/
def resetPc : Word := 0

/-- RESET_Z of State.reset. DESIGN CHOICE (log 7), unsafe: R10 makes it an input. -/
def resetZ : Bool := false

/-- RESET_S of State.reset. DESIGN CHOICE (log 7), unsafe: R10 makes it an input. -/
def resetS : Bool := false

/-- What an address the memory list does not name reads as; so RESET_MEM of State.reset is all zero.
DESIGN CHOICE (log 4), unsafe: R10 makes RESET_MEM an input. -/
def unlistedByte : Byte := 0

end Sys2Proof.Config
end

