-- ==== Sys2Proof/Syntax.lean ====
section
/-! DEFINITION. The decoded instructions, one constructor per row of spec/opcode_table.json, in the
table's order (30_encoding.md R73). R72 allows this tagged union with fields of the bundle's widths. -/

namespace Sys2Proof

/-- A register field of the decoded bundle: 7 bits, an index 0 to 99 (30_encoding.md R67, R72). The range
0 to 15 is checked when the instruction runs (40_execute_common.md R80). -/
abbrev RegIdx := BitVec 7

/-- The 30 instructions. The arguments stand in the order of the operand tokens (30_encoding.md R70). -/
inductive Instr where
  | nop
  | halt
  | rrmovq (ra rb : RegIdx)
  | irmovq (v : Word) (rb : RegIdx)
  | rmmovq (ra : RegIdx) (d : Word) (rb : RegIdx)
  | mrmovq (d : Word) (rb ra : RegIdx)
  | pushq (ra : RegIdx)
  | popq (ra : RegIdx)
  | call (target : Word)
  | ret
  | jmp (target : Word)
  | je (target : Word)
  | jne (target : Word)
  | jl (target : Word)
  | jle (target : Word)
  | jg (target : Word)
  | jge (target : Word)
  | addq (ra rb : RegIdx)
  | subq (ra rb : RegIdx)
  | mulq (ra rb : RegIdx)
  | modq (ra rb : RegIdx)
  | divq (ra rb : RegIdx)
  | andq (ra rb : RegIdx)
  | xorq (ra rb : RegIdx)
  | cmove (ra rb : RegIdx)
  | cmovne (ra rb : RegIdx)
  | cmovl (ra rb : RegIdx)
  | cmovle (ra rb : RegIdx)
  | cmovg (ra rb : RegIdx)
  | cmovge (ra rb : RegIdx)
deriving DecidableEq, Repr

end Sys2Proof
end

