-- ==== Sys2Proof/WellFormed.lean ====
section
/-! DEFINITION. Which decoded instructions a line can decode to: every register field holds an index 0 to
99 (30_encoding.md R67, R72). -/

namespace Sys2Proof

/-- The register fields that the instruction's format sets, in operand order (30_encoding.md R70). -/
def Instr.regFields : Instr → List RegIdx
  | .nop | .halt | .ret => []
  | .pushq ra | .popq ra => [ra]
  | .irmovq _ rb => [rb]
  | .rmmovq ra _ rb => [ra, rb]
  | .mrmovq _ rb ra => [rb, ra]
  | .call _ | .jmp _ | .je _ | .jne _ | .jl _ | .jle _ | .jg _ | .jge _ => []
  | .rrmovq ra rb | .addq ra rb | .subq ra rb | .mulq ra rb | .modq ra rb | .divq ra rb
  | .andq ra rb | .xorq ra rb | .cmove ra rb | .cmovne ra rb | .cmovl ra rb | .cmovle ra rb
  | .cmovg ra rb | .cmovge ra rb => [ra, rb]

/-- A register field that one or two decimal digits can write (30_encoding.md R67). -/
abbrev RegIdx.wellFormed (r : RegIdx) : Prop := r.toNat ≤ 99

/-- The instruction is one that a line can decode to. -/
abbrev Instr.wellFormed (i : Instr) : Prop := ∀ r ∈ i.regFields, RegIdx.wellFormed r

end Sys2Proof
end

