-- ==== Sys2Proof/Decode.lean ====
section
/-! DEFINITION. The decoder: from one line of bytes to an instruction or a decode fault (30_encoding.md),
and from the 86-bit bundle to an instruction or nothing (R72, R75); then the encoders, which write the
canonical line (R76) and the bundle from the same table. -/

namespace Sys2Proof

/-- One request line: a finite sequence of bytes, the terminator removed (30_encoding.md R63). -/
abbrev Line := List Byte

/-- A token: a nonempty run of bytes with no separator (30_encoding.md R64). -/
abbrev Token := List Byte

/-- The decode channel's faults (60_exceptions.md R122, R123). -/
inductive DecodeFault where
  /-- No tokens (30_encoding.md R65). -/
  | emptyLine
  /-- The first token is no mnemonic (30_encoding.md R66). -/
  | unknownMnemonic
  /-- The number of operand tokens is not the format's (30_encoding.md R71). -/
  | operandCount
  /-- A malformed register token (30_encoding.md R67, R69). -/
  | invalidRegister
  /-- A malformed or too large immediate (30_encoding.md R68). -/
  | invalidImmediate
  /-- A malformed displacement form, or D too large (30_encoding.md R69). -/
  | invalidDisplacement
deriving DecidableEq, Repr

/-- The ASCII bytes of a spelling. -/
def chars (cs : List Char) : List Byte := cs.map fun c => BitVec.ofNat 8 c.toNat

/-! ### Tokens -/

/-- Space, tab, line feed, vertical tab, form feed, carriage return, comma (30_encoding.md R64). -/
def separators : List Byte := [0x20, 0x09, 0x0A, 0x0B, 0x0C, 0x0D, 0x2C]

def isSep (c : Byte) : Bool := separators.contains c

/-- The token read so far, put before the later tokens unless it is empty. -/
def closeToken (p : Token × List Token) : List Token :=
  match p.1 with
  | [] => p.2
  | c :: cs => (c :: cs) :: p.2

def tokenStep (c : Byte) (p : Token × List Token) : Token × List Token :=
  if isSep c then ([], closeToken p) else (c :: p.1, p.2)

/-- `tokens(line)`: the line split at separators, empty pieces dropped (30_encoding.md R64). -/
def tokens (line : Line) : List Token := closeToken (line.foldr tokenStep ([], []))

/-! ### Operand tokens -/

/-- 0x30 to 0x39 (30_encoding.md R68). -/
def isDigit (c : Byte) : Bool := decide (0x30 ≤ c.toNat ∧ c.toNat ≤ 0x39)

/-- The value of decimal digits, most significant first. -/
def digitsValue (ds : List Byte) : Nat := ds.foldl (fun n c => 10 * n + (c.toNat - 0x30)) 0

/-- A nonempty run of decimal digits and nothing else. -/
def isNumber (ds : List Byte) : Bool := !ds.isEmpty && ds.all isDigit

/-- A register token: `r` and one or two decimal digits (30_encoding.md R67). -/
def parseReg (t : Token) : Except DecodeFault RegIdx :=
  match t with
  | [] => .error .invalidRegister
  | c :: ds =>
    if c = 0x72 ∧ isNumber ds = true ∧ ds.length ≤ 2 then .ok (BitVec.ofNat 7 (digitsValue ds))
    else .error .invalidRegister

/-- An immediate token: decimal digits of value at most 2^64 - 1 (30_encoding.md R68). -/
def parseImm (t : Token) : Except DecodeFault Word :=
  if isNumber t = true ∧ digitsValue t < 2 ^ 64 then .ok (BitVec.ofNat 64 (digitsValue t))
  else .error .invalidImmediate

/-- Neither `(` nor `)`. -/
def notParen (c : Byte) : Bool := !(c == 0x28) && !(c == 0x29)

/-- The parts of a token of the shape `digits ( X )`, X free of parentheses (30_encoding.md R69 step 1). -/
def dispShape (t : Token) : Option (List Byte × Token) :=
  match t.takeWhile isDigit, t.dropWhile isDigit with
  | d :: ds, o :: body =>
    if o = 0x28 ∧ body.dropWhile notParen = [0x29] then some (d :: ds, body.takeWhile notParen) else none
  | _, _ => none

/-- A displacement token `D(rN)`: shape, then the value of D, then the register (30_encoding.md R69). -/
def parseDisp (t : Token) : Except DecodeFault (Word × RegIdx) :=
  match dispShape t with
  | none => .error .invalidDisplacement
  | some (ds, x) =>
    if digitsValue ds < 2 ^ 64 then (parseReg x).map fun r => (BitVec.ofNat 64 (digitsValue ds), r)
    else .error .invalidDisplacement

/-! ### The opcode map -/

/-- The seven operand formats (30_encoding.md R70), each with the instruction it builds. -/
inductive Form where
  | N (i : Instr)
  | R (mk : RegIdx → Instr)
  | RR (mk : RegIdx → RegIdx → Instr)
  | IR (mk : Word → RegIdx → Instr)
  | RM (mk : RegIdx → Word → RegIdx → Instr)
  | MR (mk : Word → RegIdx → RegIdx → Instr)
  | I (mk : Word → Instr)

/-- The number of operand tokens of a format (30_encoding.md R70). -/
def operandCount : Form → Nat
  | .N _ => 0
  | .R _ | .I _ => 1
  | .RR _ | .IR _ | .RM _ | .MR _ => 2

/-- A row of the opcode map (30_encoding.md R73). -/
structure Row where
  mnemonic : Token
  op : Nat
  cond : Nat
  form : Form

/-- The complete opcode map, in the order of 30_encoding.md R73. -/
def opcodeTable : List Row :=
  [⟨chars ['n', 'o', 'p'], 0, 0, .N .nop⟩,
   ⟨chars ['h', 'a', 'l', 't'], 1, 0, .N .halt⟩,
   ⟨chars ['r', 'r', 'm', 'o', 'v', 'q'], 2, 0, .RR .rrmovq⟩,
   ⟨chars ['i', 'r', 'm', 'o', 'v', 'q'], 3, 0, .IR .irmovq⟩,
   ⟨chars ['r', 'm', 'm', 'o', 'v', 'q'], 4, 0, .RM .rmmovq⟩,
   ⟨chars ['m', 'r', 'm', 'o', 'v', 'q'], 5, 0, .MR .mrmovq⟩,
   ⟨chars ['p', 'u', 's', 'h', 'q'], 6, 0, .R .pushq⟩,
   ⟨chars ['p', 'o', 'p', 'q'], 7, 0, .R .popq⟩,
   ⟨chars ['c', 'a', 'l', 'l'], 8, 0, .I .call⟩,
   ⟨chars ['r', 'e', 't'], 9, 0, .N .ret⟩] ++
  [⟨chars ['j', 'm', 'p'], 10, 0, .I .jmp⟩,
   ⟨chars ['j', 'e'], 11, 3, .I .je⟩,
   ⟨chars ['j', 'n', 'e'], 12, 4, .I .jne⟩,
   ⟨chars ['j', 'l'], 13, 2, .I .jl⟩,
   ⟨chars ['j', 'l', 'e'], 14, 1, .I .jle⟩,
   ⟨chars ['j', 'g'], 15, 6, .I .jg⟩,
   ⟨chars ['j', 'g', 'e'], 16, 5, .I .jge⟩] ++
  [⟨chars ['a', 'd', 'd', 'q'], 17, 0, .RR .addq⟩,
   ⟨chars ['s', 'u', 'b', 'q'], 18, 0, .RR .subq⟩,
   ⟨chars ['m', 'u', 'l', 'q'], 19, 0, .RR .mulq⟩,
   ⟨chars ['m', 'o', 'd', 'q'], 20, 0, .RR .modq⟩,
   ⟨chars ['d', 'i', 'v', 'q'], 21, 0, .RR .divq⟩,
   ⟨chars ['a', 'n', 'd', 'q'], 22, 0, .RR .andq⟩,
   ⟨chars ['x', 'o', 'r', 'q'], 23, 0, .RR .xorq⟩] ++
  [⟨chars ['c', 'm', 'o', 'v', 'e'], 24, 3, .RR .cmove⟩,
   ⟨chars ['c', 'm', 'o', 'v', 'n', 'e'], 25, 4, .RR .cmovne⟩,
   ⟨chars ['c', 'm', 'o', 'v', 'l'], 26, 2, .RR .cmovl⟩,
   ⟨chars ['c', 'm', 'o', 'v', 'l', 'e'], 27, 1, .RR .cmovle⟩,
   ⟨chars ['c', 'm', 'o', 'v', 'g'], 28, 6, .RR .cmovg⟩,
   ⟨chars ['c', 'm', 'o', 'v', 'g', 'e'], 29, 5, .RR .cmovge⟩]

/-- The row of a first token (30_encoding.md R66: exact match). -/
def findMnemonic (t : Token) : Option Row := opcodeTable.find? fun r => r.mnemonic == t

/-! ### Decoding a line -/

/-- The operand tokens parsed left to right by the format's kinds (30_encoding.md R70). The last arm is the
count mismatch, which `decode` has refused before. -/
def parseOperands (f : Form) (ts : List Token) : Except DecodeFault Instr :=
  match f, ts with
  | .N i, [] => .ok i
  | .R mk, [a] => do
    let ra ← parseReg a
    return mk ra
  | .RR mk, [a, b] => do
    let ra ← parseReg a
    let rb ← parseReg b
    return mk ra rb
  | .IR mk, [v, b] => do
    let imm ← parseImm v
    let rb ← parseReg b
    return mk imm rb
  | .RM mk, [a, m] => do
    let ra ← parseReg a
    let (d, rb) ← parseDisp m
    return mk ra d rb
  | .MR mk, [m, a] => do
    let (d, rb) ← parseDisp m
    let ra ← parseReg a
    return mk d rb ra
  | .I mk, [v] => do
    let imm ← parseImm v
    return mk imm
  | _, _ => .error .operandCount

/-- `decode(line)` (30_encoding.md R62): the first failing step reports its fault. -/
def decode (line : Line) : Except DecodeFault Instr :=
  match tokens line with
  | [] => .error .emptyLine
  | m :: args =>
    match findMnemonic m with
    | none => .error .unknownMnemonic
    | some row =>
      if args.length = operandCount row.form then parseOperands row.form args
      else .error .operandCount

/-! ### The decoded bundle -/

/-- The fields of the decoded bundle (30_encoding.md R72). -/
structure Bundle where
  op : BitVec 5
  cond : BitVec 3
  ra : RegIdx
  rb : RegIdx
  imm : Word
deriving DecidableEq, Repr

/-- The bundle's bits: op 85:81, cond 80:78, ra 77:71, rb 70:64, imm 63:0 (30_encoding.md R72). -/
def packBundle (b : Bundle) : BitVec 86 := b.op ++ b.cond ++ b.ra ++ b.rb ++ b.imm

def unpackBundle (w : BitVec 86) : Bundle :=
  { op := w.extractLsb' 81 5
    cond := w.extractLsb' 78 3
    ra := w.extractLsb' 71 7
    rb := w.extractLsb' 64 7
    imm := w.extractLsb' 0 64 }

/-- The instruction a format builds from a bundle's fields; the fields the format does not set are not
read (30_encoding.md R72). -/
def formFromFields (f : Form) (b : Bundle) : Instr :=
  match f with
  | .N i => i
  | .R mk => mk b.ra
  | .RR mk => mk b.ra b.rb
  | .IR mk => mk b.imm b.rb
  | .RM mk => mk b.ra b.imm b.rb
  | .MR mk => mk b.imm b.rb b.ra
  | .I mk => mk b.imm

/-- The row of a bundle: its op number, with the cond number that goes with it (30_encoding.md R75). -/
def findOp (op cond : Nat) : Option Row := opcodeTable.find? fun r => r.op == op && r.cond == cond

/-- The instruction a bundle stands for; none for op 30 and 31 and for a cond that is not the op's
(30_encoding.md R75, 40_execute_common.md R77). -/
def ofBundle (b : Bundle) : Option Instr :=
  (findOp b.op.toNat b.cond.toNat).map fun row => formFromFields row.form b

/-! ### Encoding -/

/-- The op number of an instruction and its register and constant fields, 0 where the format has none
(30_encoding.md R72, R73). -/
def bundleFields : Instr → Nat × RegIdx × RegIdx × Word
  | .nop => (0, 0, 0, 0)
  | .halt => (1, 0, 0, 0)
  | .rrmovq ra rb => (2, ra, rb, 0)
  | .irmovq v rb => (3, 0, rb, v)
  | .rmmovq ra d rb => (4, ra, rb, d)
  | .mrmovq d rb ra => (5, ra, rb, d)
  | .pushq ra => (6, ra, 0, 0)
  | .popq ra => (7, ra, 0, 0)
  | .call t => (8, 0, 0, t)
  | .ret => (9, 0, 0, 0)
  | .jmp t => (10, 0, 0, t)
  | .je t => (11, 0, 0, t)
  | .jne t => (12, 0, 0, t)
  | .jl t => (13, 0, 0, t)
  | .jle t => (14, 0, 0, t)
  | .jg t => (15, 0, 0, t)
  | .jge t => (16, 0, 0, t)
  | .addq ra rb => (17, ra, rb, 0)
  | .subq ra rb => (18, ra, rb, 0)
  | .mulq ra rb => (19, ra, rb, 0)
  | .modq ra rb => (20, ra, rb, 0)
  | .divq ra rb => (21, ra, rb, 0)
  | .andq ra rb => (22, ra, rb, 0)
  | .xorq ra rb => (23, ra, rb, 0)
  | .cmove ra rb => (24, ra, rb, 0)
  | .cmovne ra rb => (25, ra, rb, 0)
  | .cmovl ra rb => (26, ra, rb, 0)
  | .cmovle ra rb => (27, ra, rb, 0)
  | .cmovg ra rb => (28, ra, rb, 0)
  | .cmovge ra rb => (29, ra, rb, 0)

/-- The table's row of an op number; the first row for a number the table does not have. -/
def rowAt (op : Nat) : Row := opcodeTable.getD op ⟨chars ['n', 'o', 'p'], 0, 0, .N .nop⟩

/-- The bundle of an instruction (30_encoding.md R72, R73). -/
def toBundle (i : Instr) : Bundle :=
  let f := bundleFields i
  { op := BitVec.ofNat 5 f.1
    cond := BitVec.ofNat 3 (rowAt f.1).cond
    ra := f.2.1
    rb := f.2.2.1
    imm := f.2.2.2 }

def encodeDigit (n : Nat) : Byte := BitVec.ofNat 8 (0x30 + n % 10)

/-- At most `fuel` decimal digits of n, put before `acc`. -/
def decimalAux : Nat → Nat → List Byte → List Byte
  | 0, _, acc => acc
  | fuel + 1, n, acc =>
    if n < 10 then encodeDigit n :: acc else decimalAux fuel (n / 10) (encodeDigit n :: acc)

/-- The decimal spelling of a number below 10^20, without leading zeros (30_encoding.md R68, R76). -/
def decimal (n : Nat) : List Byte := decimalAux 20 n []

/-- `rN` (30_encoding.md R76). -/
def encodeReg (r : RegIdx) : Token := 0x72 :: decimal r.toNat

/-- `D(rN)` (30_encoding.md R69, R76). -/
def encodeDisp (d : Word) (r : RegIdx) : Token := decimal d.toNat ++ 0x28 :: (encodeReg r ++ [0x29])

/-- The operand tokens that a format writes from a bundle's fields (30_encoding.md R70). -/
def operandTokens (f : Form) (b : Bundle) : List Token :=
  match f with
  | .N _ => []
  | .R _ => [encodeReg b.ra]
  | .RR _ => [encodeReg b.ra, encodeReg b.rb]
  | .IR _ => [decimal b.imm.toNat, encodeReg b.rb]
  | .RM _ => [encodeReg b.ra, encodeDisp b.imm b.rb]
  | .MR _ => [encodeDisp b.imm b.rb, encodeReg b.ra]
  | .I _ => [decimal b.imm.toNat]

/-- The mnemonic, then one space, then the operand tokens with a comma between them (30_encoding.md R76). -/
def spell (m : Token) : List Token → Line
  | [] => m
  | a :: ts => m ++ 0x20 :: (a ++ ts.flatMap fun t => 0x2C :: t)

/-- The canonical line of an instruction (30_encoding.md R76). -/
def encode (i : Instr) : Line :=
  let row := rowAt (bundleFields i).1
  spell row.mnemonic (operandTokens row.form (toBundle i))

/-- The bundle's bits of an instruction (30_encoding.md R72). -/
def encodeBundle (i : Instr) : BitVec 86 := packBundle (toBundle i)

/-- The instruction of a bundle given as bits. -/
def decodeBundle (w : BitVec 86) : Option Instr := ofBundle (unpackBundle w)

/-- The line that carries a table word: the canonical line of the bundle the table numbers
(opcode_table.json gives each row its bundle_match and bundle_mask; log 12). -/
def lineOfTableWord (nbits w : Nat) : Option Line :=
  if w % 2 ^ nbits < 2 ^ 86 then (decodeBundle (BitVec.ofNat 86 (w % 2 ^ nbits))).map encode else none

/-- The instruction the decoder reads from a table word: the word's canonical line, decoded (log 12). -/
def decodeTableWord (nbits w : Nat) : Option Instr :=
  (lineOfTableWord nbits w).bind fun line => (decode line).toOption

end Sys2Proof
end

