-- ==== Sys2Proof/Machine/State.lean ====
section
/-! DEFINITION. Everything the block holds (10_state.md R42), its two behaviour parameters (00_scope.md
R11) and its ports (R13), as plain data; the state after reset; why a step can stop. -/

namespace Sys2Proof.Machine

/-- The execution channel's faults (60_exceptions.md R122, R123). Each is an answer to a request, not a
stop of the machine (R126; log 1). -/
inductive ExecFault where
  /-- A register index above 15: every instruction with a register operand (40_execute_common.md R80). -/
  | regRange
  /-- A quad not inside the window: rmmovq, mrmovq, pushq, popq, call, ret (20_memory.md R46). -/
  | memBounds
  /-- pushq with x[4] below 8 (47_stack_call.md R117). -/
  | pushSpGuard
  /-- call with x[4] = 0 (47_stack_call.md R119). -/
  | callSpZero
  /-- divq by 0 (43_alu.md R98). -/
  | divZero
  /-- modq with both operands 0; sets Z (43_alu.md R99). -/
  | modBothZero
  /-- divq and modq of -2^63 by -1 (43_alu.md R98, R99). -/
  | divOverflow
deriving DecidableEq, Repr

/-- `rsp.status`: the outcome of a request (60_exceptions.md R123). -/
inductive Status where
  | ok
  | halted
  | dump
  | decodeFault (k : DecodeFault)
  | execFault (k : ExecFault)
deriving DecidableEq, Repr

/-- `rsp.snapshot`: what `dump` shows; not H, MEM_CAPACITY or memory (60_exceptions.md R135). -/
structure Snapshot where
  x : Vector Word 16
  O : Bool
  S : Bool
  Z : Bool
  pc : Word
  startAddr : Word
  validMem : Word
deriving DecidableEq, Repr

/-- One response; the snapshot is there only when the status is `dump` (00_scope.md R13). -/
structure Response where
  status : Status
  snapshot : Option Snapshot
deriving DecidableEq, Repr

/-- The bytes of the window that differ from `Config.unlistedByte`, by rising address (20_memory.md R44,
10_state.md R40; log 4). -/
abbrev Memory := List Host.Cell

/-- The machine: the ten fields of 10_state.md R42, the parameters of 00_scope.md R11 (log 9), and the
requests and responses at the ports of R13 (logs 2, 3). -/
structure State where
  /-- The 16 general registers; x[4] is the stack pointer (10_state.md R23, R25). -/
  x : Vector Word 16
  /-- The program counter (10_state.md R28). -/
  pc : Word
  /-- The Zero flag (10_state.md R32). -/
  Z : Bool
  /-- The Sign flag (10_state.md R32). -/
  S : Bool
  /-- The Overflow flag (10_state.md R32, R33). -/
  O : Bool
  /-- The halted latch (10_state.md R35). -/
  H : Bool
  /-- START_ADDR (10_state.md R37). -/
  startAddr : Word
  /-- VALID_MEM (10_state.md R37). -/
  validMem : Word
  /-- MEM_CAPACITY (10_state.md R38). -/
  memCapacity : Nat
  /-- The memory bytes M (10_state.md R40). -/
  mem : Memory
  /-- HALT_PC_POLICY (00_scope.md R11). -/
  haltPcPolicy : Config.HaltPcPolicy
  /-- MODQ_BOTHZERO_FLAGS (00_scope.md R11). -/
  modqBothZeroFlags : Config.ModqBothZeroFlags
  /-- Request lines not yet taken, oldest first (00_scope.md R13, R14). -/
  req : List Line
  /-- Responses given since reset, oldest first (00_scope.md R14, 70_reset_and_hazards.md R150). -/
  rsp : List Response
deriving DecidableEq, Repr

/-- Why a step could stop with a fault: nothing. "A fault never terminates the block" (00_scope.md R21):
the spec's faults are the `Status` of a response in a next state (log 1, safe). -/
inductive Fault where
deriving DecidableEq, Repr

/-- Why something has no meaning. No step and no instruction answers any of these. -/
inductive Refusal where
  /-- An instruction still without a meaning; no arm of exec answers it. Safe. -/
  | notModelled (mnemonic : String)
  /-- Raised by `executeBundle` on a bundle the decoder never produces: op 30 or 31, or a cond that is
  not the op's (30_encoding.md R75). Safe. -/
  | unusedBundle
  /-- Raised by `rst` on a configuration outside 00_scope.md R9, or a RESET_MEM that is not VALID_MEM
  bytes long (93_implementation_defined.md U13; log 10). Safe. -/
  | configNotAdmitted
deriving DecidableEq, Repr

/-- The machine right after reset (70_reset_and_hazards.md R140): O and H are 0 as the spec says, the
inputs the spec leaves to the model are those of Config (logs 4 to 9), no request waits (R141). -/
def State.reset : State where
  x := Vector.replicate 16 Config.resetReg
  pc := Config.resetPc
  Z := Config.resetZ
  S := Config.resetS
  O := false
  H := false
  startAddr := Config.startAddr
  validMem := Config.validMem
  memCapacity := Config.memCapacity
  mem := []
  haltPcPolicy := Config.haltPcPolicy
  modqBothZeroFlags := Config.modqBothZeroFlags
  req := []
  rsp := []

end Sys2Proof.Machine
end

