-- ==== Sys2Proof/Machine/Ops.lean ====
section
/-! DEFINITION. The named operations of the machine: registers, the two pc writes, memory, responses, and
raising a fault (00_scope.md R20, 20_memory.md, 40_execute_common.md R78, R79, R87). -/

namespace Sys2Proof.Machine

/-- How a request ends. -/
abbrev Result := Host.Outcome State Fault Refusal

/-! ### Registers (00_scope.md R20) -/

/-- `x[i]` -/
def State.reg (s : State) (i : Fin 16) : Word := s.x[i]

/-- `x[i] <- v` -/
def State.setReg (s : State) (i : Fin 16) (v : Word) : State := { s with x := s.x.set i v }

/-- The index of the stack pointer, SP_INDEX = 4 (00_scope.md R8, 10_state.md R25). -/
def spIndex : Fin 16 := 4

/-! ### The program counter (40_execute_common.md R87) -/

/-- `advance(n)`: no write while H = 1, under either policy. -/
def State.advance (s : State) (n : Nat) : State :=
  { s with pc := if s.H then s.pc else to64 (u64 s.pc + n) }

/-- `transfer(t)`: no write while H = 1 under FreezeAll. -/
def State.transfer (s : State) (t : Word) : State :=
  { s with pc := if s.H = true ∧ s.haltPcPolicy = .freezeAll then s.pc else t }

/-! ### Memory (20_memory.md) -/

/-- The byte at an address. -/
def Memory.read : Memory → Nat → Byte
  | [], _ => Config.unlistedByte
  | (k, b) :: rest, a => if k = a then b else Memory.read rest a

/-- One more cell before later ones, left out when an unlisted address reads the same. -/
def Memory.cons (a : Nat) (b : Byte) (rest : Memory) : Memory :=
  if b = Config.unlistedByte then rest else (a, b) :: rest

/-- The byte written at its place by rising address. -/
def Memory.write : Memory → Nat → Byte → Memory
  | [], a, b => Memory.cons a b []
  | (k, c) :: rest, a, b =>
    if a < k then Memory.cons a b ((k, c) :: rest)
    else if a = k then Memory.cons a b rest
    else (k, c) :: Memory.write rest a b

/-- The canonical form: addresses strictly rising, no entry that an unlisted address reads as. -/
abbrev Memory.wf (m : Memory) : Prop :=
  m.Pairwise (fun p q => p.1 < q.1) ∧ ∀ c ∈ m, c.2 ≠ Config.unlistedByte

/-- Bytes written one after the other from an address upwards. -/
def Memory.writeBytes : Memory → Nat → List Byte → Memory
  | m, _, [] => m
  | m, a, b :: bs => Memory.writeBytes (m.write a b) (a + 1) bs

/-- The quad at an address, the byte at the lowest address in bits 7:0 (20_memory.md R47, R50). -/
def Memory.readQuad (m : Memory) (a : Nat) : Word :=
  m.read (a + 7) ++ m.read (a + 6) ++ m.read (a + 5) ++ m.read (a + 4) ++
    m.read (a + 3) ++ m.read (a + 2) ++ m.read (a + 1) ++ m.read a

/-- The bytes of a quad from the lowest address upwards: byte j is bits 8j+7:8j (20_memory.md R48). -/
def quadBytes (v : Word) : List Byte := (List.range 8).map fun j => v.extractLsb' (8 * j) 8

/-- `inb(a)`, in exact integers (20_memory.md R46). -/
abbrev State.inBounds (s : State) (a : Word) : Prop :=
  u64 s.startAddr ≤ u64 a ∧ u64 a + 8 ≤ u64 s.startAddr + u64 s.validMem

/-- `MemRead(a, 8)`, none for Fail (20_memory.md R47). -/
def State.memRead (s : State) (a : Word) : Option Word :=
  if s.inBounds a then some (s.mem.readQuad (u64 a)) else none

/-- `MemWrite(a, 8, v)`, none for Fail, which writes no byte (20_memory.md R48). -/
def State.memWrite (s : State) (a v : Word) : Option State :=
  if s.inBounds a then some { s with mem := s.mem.writeBytes (u64 a) (quadBytes v) } else none

/-! ### Responses (00_scope.md R13, R14) -/

/-- A response with a status and no snapshot, put after the earlier ones. -/
def State.respond (s : State) (st : Status) : State := { s with rsp := s.rsp ++ [⟨st, none⟩] }

/-- `return OK` (40_execute_common.md R78) -/
def succeed (s : State) : Result := .next (s.respond .ok)

/-- `raise k`: the one way an instruction faults. The request completes with the fault's status, nothing
is saved, the pc goes nowhere, and the next request runs normally (60_exceptions.md R124, R126;
00_scope.md R20; log 1). The state given is the state kept (40_execute_common.md R79). -/
def raise (k : ExecFault) (s : State) : Result := .next (s.respond (.execFault k))

/-! ### Status codes (60_exceptions.md R123) -/

def DecodeFault.code : DecodeFault → Byte
  | .emptyLine => 0x10
  | .unknownMnemonic => 0x11
  | .operandCount => 0x12
  | .invalidRegister => 0x13
  | .invalidImmediate => 0x14
  | .invalidDisplacement => 0x15

def ExecFault.code : ExecFault → Byte
  | .regRange => 0x20
  | .memBounds => 0x21
  | .pushSpGuard => 0x22
  | .callSpZero => 0x23
  | .divZero => 0x24
  | .modBothZero => 0x25
  | .divOverflow => 0x26

/-- The 8-bit code on `rsp.status`. -/
def Status.code : Status → Byte
  | .ok => 0x00
  | .halted => 0x01
  | .dump => 0x02
  | .decodeFault k => DecodeFault.code k
  | .execFault k => k.code

end Sys2Proof.Machine
end

