-- ==== Sys2Proof/Machine/Boot.lean ====
section
/-! DEFINITION. Reset for every configuration and every choice of the reset inputs (00_scope.md R9, R10;
70_reset_and_hazards.md R140). State.reset is one case of it. -/

namespace Sys2Proof.Machine

/-- The port `cfg`, sampled at reset (00_scope.md R9, R13). -/
structure Cfg where
  memCapacity : Nat
  startAddr : Word
  validMem : Word
deriving DecidableEq, Repr

/-- The model's other inputs at reset: the RESET_ values (00_scope.md R10) and the behaviour parameters
(R11). RESET_MEM is listed from START_ADDR upwards. -/
structure ResetInputs where
  regs : Vector Word 16
  pc : Word
  Z : Bool
  S : Bool
  mem : List Byte
  haltPcPolicy : Config.HaltPcPolicy
  modqBothZeroFlags : Config.ModqBothZeroFlags
deriving DecidableEq, Repr

/-- The constraints of 00_scope.md R9, computed exactly, and RESET_MEM being VALID_MEM bytes (R10). -/
abbrev admitted (c : Cfg) (r : ResetInputs) : Prop :=
  u64 c.validMem ≤ c.memCapacity ∧ u64 c.startAddr + u64 c.validMem ≤ 2 ^ 64 ∧
    r.mem.length = u64 c.validMem

/-- The state that reset loads (70_reset_and_hazards.md R140). -/
def bootState (c : Cfg) (r : ResetInputs) : State where
  x := r.regs
  pc := r.pc
  Z := r.Z
  S := r.S
  O := false
  H := false
  startAddr := c.startAddr
  validMem := c.validMem
  memCapacity := c.memCapacity
  mem := Memory.writeBytes [] (u64 c.startAddr) r.mem
  haltPcPolicy := r.haltPcPolicy
  modqBothZeroFlags := r.modqBothZeroFlags
  req := []
  rsp := []

/-- The port `rst`: a configuration outside 00_scope.md R9 is not admitted
(93_implementation_defined.md U13). -/
def rst (c : Cfg) (r : ResetInputs) : Result :=
  if admitted c r then .next (bootState c r) else .refused .configNotAdmitted

end Sys2Proof.Machine
end

