-- ==== Sys2Proof/Machine/Session.lean ====
section
/-! DEFINITION. The session layer's text of a response (60_exceptions.md R136, R137; 00_scope.md R18;
92_eei_decisions.md D31). It is outside the block: no step calls it (log 13). -/

namespace Sys2Proof.Machine

/-- The flag summary: columns O, S, Z, the letter or `-` (60_exceptions.md R136). -/
def flagSummary (p : Snapshot) : List Byte :=
  chars [if p.O then 'O' else '-', if p.S then 'S' else '-', if p.Z then 'Z' else '-']

/-- One lowercase hexadecimal digit (60_exceptions.md R137). -/
def hexDigit (n : BitVec 4) : Byte :=
  if n.toNat < 10 then BitVec.ofNat 8 (0x30 + n.toNat) else BitVec.ofNat 8 (0x57 + n.toNat)

/-- 16 hexadecimal digits with leading zeros (60_exceptions.md R137). -/
def hexWord (v : Word) : List Byte :=
  (List.range 16).map fun k => hexDigit (v.extractLsb' (4 * (15 - k)) 4)

/-- `name: value` -/
def snapshotLine (name value : List Byte) : List Byte := name ++ chars [':', ' '] ++ value

/-- The lines of a snapshot in the canonical layout (60_exceptions.md R137). -/
def snapshotLines (p : Snapshot) : List (List Byte) :=
  (List.finRange 16).map (fun i => snapshotLine (0x72 :: decimal i.val) (hexWord p.x[i])) ++
  [snapshotLine (chars ['f', 'l', 'a', 'g', 's']) (flagSummary p),
   snapshotLine (chars ['p', 'c']) (hexWord p.pc),
   snapshotLine (chars ['s', 't', 'a', 'r', 't', '_', 'a', 'd', 'd', 'r']) (hexWord p.startAddr),
   snapshotLine (chars ['v', 'a', 'l', 'i', 'd', '_', 'm', 'e', 'm']) (hexWord p.validMem)]

/-- The cause name of a decode fault (60_exceptions.md R123). -/
def decodeFaultName : DecodeFault → List Byte
  | .emptyLine => chars ['E', 'M', 'P', 'T', 'Y', '_', 'L', 'I', 'N', 'E']
  | .unknownMnemonic =>
    chars ['U', 'N', 'K', 'N', 'O', 'W', 'N', '_', 'M', 'N', 'E', 'M', 'O', 'N', 'I', 'C']
  | .operandCount => chars ['O', 'P', 'E', 'R', 'A', 'N', 'D', '_', 'C', 'O', 'U', 'N', 'T']
  | .invalidRegister =>
    chars ['I', 'N', 'V', 'A', 'L', 'I', 'D', '_', 'R', 'E', 'G', 'I', 'S', 'T', 'E', 'R']
  | .invalidImmediate =>
    chars ['I', 'N', 'V', 'A', 'L', 'I', 'D', '_', 'I', 'M', 'M', 'E', 'D', 'I', 'A', 'T', 'E']
  | .invalidDisplacement =>
    chars ['I', 'N', 'V', 'A', 'L', 'I', 'D', '_', 'D', 'I', 'S', 'P', 'L', 'A', 'C', 'E', 'M', 'E', 'N', 'T']

/-- The cause name of an execution fault (60_exceptions.md R123). -/
def execFaultName : ExecFault → List Byte
  | .regRange => chars ['R', 'E', 'G', '_', 'R', 'A', 'N', 'G', 'E']
  | .memBounds => chars ['M', 'E', 'M', '_', 'B', 'O', 'U', 'N', 'D', 'S']
  | .pushSpGuard => chars ['P', 'U', 'S', 'H', '_', 'S', 'P', '_', 'G', 'U', 'A', 'R', 'D']
  | .callSpZero => chars ['C', 'A', 'L', 'L', '_', 'S', 'P', '_', 'Z', 'E', 'R', 'O']
  | .divZero => chars ['D', 'I', 'V', '_', 'Z', 'E', 'R', 'O']
  | .modBothZero => chars ['M', 'O', 'D', '_', 'B', 'O', 'T', 'H', '_', 'Z', 'E', 'R', 'O']
  | .divOverflow => chars ['D', 'I', 'V', '_', 'O', 'V', 'E', 'R', 'F', 'L', 'O', 'W']

/-- The error marker and the cause name (92_eei_decisions.md D31). -/
def errorText (name : List Byte) : List Byte := chars ['E', 'r', 'r', 'o', 'r', ':', ' '] ++ name

/-- The lines of a response's text (92_eei_decisions.md D31); a dump response is its snapshot's lines. -/
def responseLines (r : Response) : List (List Byte) :=
  match r.status with
  | .ok =>
    [chars ['I', 'n', 's', 't', 'r', 'u', 'c', 't', 'i', 'o', 'n', ' ', 'E', 'x', 'e', 'c', 'u', 't', 'e', 'd']]
  | .halted => [chars ['h', 'a', 'l', 't', 'e', 'd']]
  | .dump => (r.snapshot.map snapshotLines).getD []
  | .decodeFault k => [errorText (decodeFaultName k)]
  | .execFault k => [errorText (execFaultName k)]

end Sys2Proof.Machine
end

