-- ==== Sys2Proof/Machine/Operands.lean ====
section
/-! DEFINITION. The operand forms: register fields with their range check (40_execute_common.md R80) and the
effective address D(rB) (20_memory.md R53). Immediates and targets are the constants themselves. -/

namespace Sys2Proof.Machine

/-- The register an index names, none for an index above 15 (40_execute_common.md R80). -/
def regOf (r : RegIdx) : Option (Fin 16) := if h : r.toNat < 16 then some ⟨r.toNat, h⟩ else none

/-- `regcheck` for one register field, then the handler (40_execute_common.md R77, R80). -/
def withReg (r : RegIdx) (s : State) (handler : Fin 16 → Result) : Result :=
  match regOf r with
  | some i => handler i
  | none => raise .regRange s

/-- `regcheck` for two register fields, then the handler (40_execute_common.md R77, R80). -/
def withRegs (ra rb : RegIdx) (s : State) (handler : Fin 16 → Fin 16 → Result) : Result :=
  withReg ra s fun a => withReg rb s fun b => handler a b

/-- EA = to64(u64(x[rB]) + u64(D)) (20_memory.md R53). -/
def effectiveAddress (s : State) (b : Fin 16) (d : Word) : Word := to64 (u64 (s.reg b) + u64 d)

/-- The quad address of a push or call: to64(u64(x[4]) - 8) (47_stack_call.md R117, R119). -/
def pushAddress (s : State) : Word := to64 (u64 (s.reg spIndex) - 8)

/-- The return address that call pushes: to64(u64(pc) + 9) (47_stack_call.md R119). -/
def returnAddress (s : State) : Word := to64 (u64 s.pc + 9)

end Sys2Proof.Machine
end

