-- ==== Sys2Proof/Machine/Flags.lean ====
section
/-! DEFINITION. The flag computations and the condition predicates (40_execute_common.md R81, R83; 43_alu.md
R99). -/

namespace Sys2Proof.Machine

/-- The ALU flag rule for a result r: O <- 0, Z <- (r = 0), S <- r[63] (40_execute_common.md R83). -/
def State.setFlags (s : State) (r : Word) : State :=
  { s with O := false, Z := decide (r = 0), S := r.msb }

/-- The flag write of MOD_BOTH_ZERO: Z <- 1, and under ZOnly S <- 0 and O <- 0 (43_alu.md R99). -/
def State.setBothZeroFlags (s : State) : State :=
  match s.modqBothZeroFlags with
  | .setZKeepOthers => { s with Z := true }
  | .zOnly => { s with Z := true, S := false, O := false }

/-- cc1: Z or S, for le (40_execute_common.md R81). -/
def State.ccLe (s : State) : Bool := s.Z || s.S

/-- cc2: S and not Z, for l (40_execute_common.md R81). -/
def State.ccL (s : State) : Bool := s.S && !s.Z

/-- cc3: Z and not S, for e (40_execute_common.md R81). -/
def State.ccE (s : State) : Bool := s.Z && !s.S

/-- cc4: not Z, for ne (40_execute_common.md R81). -/
def State.ccNe (s : State) : Bool := !s.Z

/-- cc5: Z or not S, for ge (40_execute_common.md R81). -/
def State.ccGe (s : State) : Bool := s.Z || !s.S

/-- cc6: not S and not Z, for g (40_execute_common.md R81). -/
def State.ccG (s : State) : Bool := !s.S && !s.Z

end Sys2Proof.Machine
end

