-- ==== Sys2Proof/Machine/Alu.lean ====
section
/-! DEFINITION. The ALU operations (43_alu.md). A is x[rA], B is x[rB]; the result goes to rB. -/

namespace Sys2Proof.Machine

/-- The end of a successful ALU operation: write the result, set the flags from it, advance by 2
(43_alu.md, 40_execute_common.md R83, R85). -/
def aluResult (b : Fin 16) (r : Word) (s : State) : Result :=
  succeed (((s.setReg b r).setFlags r).advance 2)

/-- An ALU operation with no fault of its own; f is given B and then A. -/
def aluOp (f : Word → Word → Word) (ra rb : RegIdx) (s : State) : Result :=
  withRegs ra rb s fun a b => aluResult b (f (s.reg b) (s.reg a)) s

/-- addq rA,rB (43_alu.md R93). -/
def execAddq (ra rb : RegIdx) (s : State) : Result := aluOp (fun B A => to64 (u64 B + u64 A)) ra rb s

/-- subq rA,rB: B - A (43_alu.md R94). -/
def execSubq (ra rb : RegIdx) (s : State) : Result := aluOp (fun B A => to64 (u64 B - u64 A)) ra rb s

/-- mulq rA,rB: the low 64 bits of the product (43_alu.md R95). -/
def execMulq (ra rb : RegIdx) (s : State) : Result := aluOp (fun B A => to64 (s64 B * s64 A)) ra rb s

/-- xorq rA,rB (43_alu.md R96). -/
def execXorq (ra rb : RegIdx) (s : State) : Result := aluOp (fun B A => B ^^^ A) ra rb s

/-- andq rA,rB (43_alu.md R97). -/
def execAndq (ra rb : RegIdx) (s : State) : Result := aluOp (fun B A => B &&& A) ra rb s

/-- The quotient truncated toward zero (43_alu.md R98; R92). -/
def quotient (B A : Word) : Word := to64 ((s64 B).tdiv (s64 A))

/-- B - trunc(B / A) * A (43_alu.md R99; R92). -/
def remainder (B A : Word) : Word := to64 (s64 B - (s64 B).tdiv (s64 A) * s64 A)

/-- The one quotient that does not fit: -2^63 / -1 (43_alu.md R92). -/
abbrev quotientOverflows (B A : Word) : Prop := s64 B = -2 ^ 63 ∧ s64 A = -1

/-- divq rA,rB: DIV_ZERO, then DIV_OVERFLOW, then the quotient (43_alu.md R98). -/
def execDivq (ra rb : RegIdx) (s : State) : Result :=
  withRegs ra rb s fun a b =>
    if s64 (s.reg a) = 0 then raise .divZero s
    else if quotientOverflows (s.reg b) (s.reg a) then raise .divOverflow s
    else aluResult b (quotient (s.reg b) (s.reg a)) s

/-- modq rA,rB: MOD_BOTH_ZERO keeps its flag write; a divisor alone 0 succeeds and writes only the pc;
then DIV_OVERFLOW, then the remainder (43_alu.md R99). -/
def execModq (ra rb : RegIdx) (s : State) : Result :=
  withRegs ra rb s fun a b =>
    if s64 (s.reg a) = 0 then
      if s64 (s.reg b) = 0 then raise .modBothZero s.setBothZeroFlags
      else succeed (s.advance 2)
    else if quotientOverflows (s.reg b) (s.reg a) then raise .divOverflow s
    else aluResult b (remainder (s.reg b) (s.reg a)) s

end Sys2Proof.Machine
end

