-- ==== Sys2Proof/Machine/Cmov.lean ====
section
/-! DEFINITION. The conditional moves (44_cmov.md). -/

namespace Sys2Proof.Machine

/-- if the condition holds then x[rB] <- x[rA]; advance by 2 either way (44_cmov.md). -/
def cmov (cc : Bool) (ra rb : RegIdx) (s : State) : Result :=
  withRegs ra rb s fun a b => succeed ((if cc then s.setReg b (s.reg a) else s).advance 2)

/-- cmove rA,rB (44_cmov.md R100). -/
def execCmove (ra rb : RegIdx) (s : State) : Result := cmov s.ccE ra rb s

/-- cmovne rA,rB (44_cmov.md R101). -/
def execCmovne (ra rb : RegIdx) (s : State) : Result := cmov s.ccNe ra rb s

/-- cmovl rA,rB (44_cmov.md R102). -/
def execCmovl (ra rb : RegIdx) (s : State) : Result := cmov s.ccL ra rb s

/-- cmovle rA,rB (44_cmov.md R103). -/
def execCmovle (ra rb : RegIdx) (s : State) : Result := cmov s.ccLe ra rb s

/-- cmovg rA,rB (44_cmov.md R104). -/
def execCmovg (ra rb : RegIdx) (s : State) : Result := cmov s.ccG ra rb s

/-- cmovge rA,rB (44_cmov.md R105). -/
def execCmovge (ra rb : RegIdx) (s : State) : Result := cmov s.ccGe ra rb s

end Sys2Proof.Machine
end

