-- ==== Sys2Proof/Machine/Jumps.lean ====
section
/-! DEFINITION. The jumps (45_jumps.md). Targets are absolute. -/

namespace Sys2Proof.Machine

/-- Taken: transfer(target); untaken: advance(9) (45_jumps.md). -/
def jump (cc : Bool) (target : Word) (s : State) : Result :=
  succeed (if cc then s.transfer target else s.advance 9)

/-- jmp target (45_jumps.md R106). -/
def execJmp (target : Word) (s : State) : Result := jump true target s

/-- je target (45_jumps.md R107). -/
def execJe (target : Word) (s : State) : Result := jump s.ccE target s

/-- jne target (45_jumps.md R108). -/
def execJne (target : Word) (s : State) : Result := jump s.ccNe target s

/-- jl target (45_jumps.md R109). -/
def execJl (target : Word) (s : State) : Result := jump s.ccL target s

/-- jle target (45_jumps.md R110). -/
def execJle (target : Word) (s : State) : Result := jump s.ccLe target s

/-- jg target (45_jumps.md R111). -/
def execJg (target : Word) (s : State) : Result := jump s.ccG target s

/-- jge target (45_jumps.md R112). -/
def execJge (target : Word) (s : State) : Result := jump s.ccGe target s

end Sys2Proof.Machine
end

