-- ==== Sys2Proof/Machine/LoadStore.lean ====
section
/-! DEFINITION. Loads and stores (46_load_store.md). -/

namespace Sys2Proof.Machine

/-- The rest of an instruction after a memory write, or MEM_BOUNDS with no byte written. -/
def storeThen (s : State) (addr v : Word) (rest : State → Result) : Result :=
  match s.memWrite addr v with
  | some s' => rest s'
  | none => raise .memBounds s

/-- The rest of an instruction after a memory read, or MEM_BOUNDS. -/
def loadThen (s : State) (addr : Word) (rest : Word → Result) : Result :=
  match s.memRead addr with
  | some v => rest v
  | none => raise .memBounds s

/-- rmmovq rA,D(rB) (46_load_store.md R114). -/
def execRmmovq (ra : RegIdx) (d : Word) (rb : RegIdx) (s : State) : Result :=
  withRegs ra rb s fun a b =>
    storeThen s (effectiveAddress s b d) (s.reg a) fun s' => succeed (s'.advance 10)

/-- mrmovq D(rB),rA (46_load_store.md R115). -/
def execMrmovq (d : Word) (rb ra : RegIdx) (s : State) : Result :=
  withRegs ra rb s fun a b =>
    loadThen s (effectiveAddress s b d) fun v => succeed ((s.setReg a v).advance 10)

end Sys2Proof.Machine
end

