-- ==== Sys2Proof/Machine/Moves.lean ====
section
/-! DEFINITION. irmovq and rrmovq (42_moves.md). -/

namespace Sys2Proof.Machine

/-- irmovq V,rB (42_moves.md R90). -/
def execIrmovq (v : Word) (rb : RegIdx) (s : State) : Result :=
  withReg rb s fun b => succeed ((s.setReg b v).advance 10)

/-- rrmovq rA,rB (42_moves.md R91). -/
def execRrmovq (ra rb : RegIdx) (s : State) : Result :=
  withRegs ra rb s fun a b => succeed ((s.setReg b (s.reg a)).advance 2)

end Sys2Proof.Machine
end

