-- ==== Sys2Proof/Machine/NopHalt.lean ====
section
/-! DEFINITION. nop and halt (41_nop_halt.md). -/

namespace Sys2Proof.Machine

/-- nop (41_nop_halt.md R88). -/
def execNop (s : State) : Result := succeed (s.advance 1)

/-- halt: H <- 1, the pc unchanged, status HALTED, also when H is already 1 (41_nop_halt.md R89). -/
def execHalt (s : State) : Result := .next (({ s with H := true }).respond .halted)

end Sys2Proof.Machine
end

