-- ==== Sys2Proof/Machine/Stack.lean ====
section
/-! DEFINITION. Stack and subroutine operations (47_stack_call.md). The stack pointer is x[4]. -/

namespace Sys2Proof.Machine

/-- pushq rA: the guard before the decrement, the value read before x[4] changes (47_stack_call.md R117). -/
def execPushq (ra : RegIdx) (s : State) : Result :=
  withReg ra s fun a =>
    if u64 (s.reg spIndex) < 8 then raise .pushSpGuard s
    else storeThen s (pushAddress s) (s.reg a) fun s' =>
      succeed ((s'.setReg spIndex (pushAddress s)).advance 2)

/-- x[4] <- to64(u64(x[4]) + 8), reading x[4] as it now stands (47_stack_call.md R118). -/
def popStack (s : State) : State := s.setReg spIndex (to64 (u64 (s.reg spIndex) + 8))

/-- popq rA: x[4] is raised after the loaded value is written, so popq r4 leaves the value plus 8
(47_stack_call.md R118). -/
def execPopq (ra : RegIdx) (s : State) : Result :=
  withReg ra s fun a =>
    loadThen s (s.reg spIndex) fun v => succeed ((popStack (s.setReg a v)).advance 2)

/-- call target: the guard rejects x[4] = 0 only (47_stack_call.md R119). -/
def execCall (target : Word) (s : State) : Result :=
  if u64 (s.reg spIndex) = 0 then raise .callSpZero s
  else storeThen s (pushAddress s) (returnAddress s) fun s' =>
    succeed ((s'.setReg spIndex (pushAddress s)).transfer target)

/-- ret (47_stack_call.md R120). -/
def execRet (s : State) : Result :=
  loadThen s (s.reg spIndex) fun v => succeed ((popStack s).transfer v)

end Sys2Proof.Machine
end

