-- ==== Sys2Proof/Machine/Dispatch.lean ====
section
/-! DEFINITION. The dispatch over the decoded instruction (40_execute_common.md R77): one arm per constructor. -/

namespace Sys2Proof.Machine

def exec (i : Instr) (s : State) : Host.Outcome State Fault Refusal :=
  match i with
  | .nop => Sys2Proof.Machine.execNop s
  | .halt => Sys2Proof.Machine.execHalt s
  | .rrmovq ra rb => Sys2Proof.Machine.execRrmovq ra rb s
  | .irmovq v rb => Sys2Proof.Machine.execIrmovq v rb s
  | .rmmovq ra d rb => Sys2Proof.Machine.execRmmovq ra d rb s
  | .mrmovq d rb ra => Sys2Proof.Machine.execMrmovq d rb ra s
  | .pushq ra => Sys2Proof.Machine.execPushq ra s
  | .popq ra => Sys2Proof.Machine.execPopq ra s
  | .call target => Sys2Proof.Machine.execCall target s
  | .ret => Sys2Proof.Machine.execRet s
  | .jmp target => Sys2Proof.Machine.execJmp target s
  | .je target => Sys2Proof.Machine.execJe target s
  | .jne target => Sys2Proof.Machine.execJne target s
  | .jl target => Sys2Proof.Machine.execJl target s
  | .jle target => Sys2Proof.Machine.execJle target s
  | .jg target => Sys2Proof.Machine.execJg target s
  | .jge target => Sys2Proof.Machine.execJge target s
  | .addq ra rb => Sys2Proof.Machine.execAddq ra rb s
  | .subq ra rb => Sys2Proof.Machine.execSubq ra rb s
  | .mulq ra rb => Sys2Proof.Machine.execMulq ra rb s
  | .modq ra rb => Sys2Proof.Machine.execModq ra rb s
  | .divq ra rb => Sys2Proof.Machine.execDivq ra rb s
  | .andq ra rb => Sys2Proof.Machine.execAndq ra rb s
  | .xorq ra rb => Sys2Proof.Machine.execXorq ra rb s
  | .cmove ra rb => Sys2Proof.Machine.execCmove ra rb s
  | .cmovne ra rb => Sys2Proof.Machine.execCmovne ra rb s
  | .cmovl ra rb => Sys2Proof.Machine.execCmovl ra rb s
  | .cmovle ra rb => Sys2Proof.Machine.execCmovle ra rb s
  | .cmovg ra rb => Sys2Proof.Machine.execCmovg ra rb s
  | .cmovge ra rb => Sys2Proof.Machine.execCmovge ra rb s

end Sys2Proof.Machine
end

