-- ==== Sys2Proof/Machine/Transact.lean ====
section
/-! DEFINITION. One request (00_scope.md R15): the dump command (60_exceptions.md R135), a decode fault, or an
instruction; executing a bundle (40_execute_common.md R77); the host's two inputs, reset and a request
line (00_scope.md R13). -/

namespace Sys2Proof.Machine

/-- What `dump` shows (60_exceptions.md R135). -/
def State.snapshot (s : State) : Snapshot where
  x := s.x
  O := s.O
  S := s.S
  Z := s.Z
  pc := s.pc
  startAddr := s.startAddr
  validMem := s.validMem

/-- The response of `dump`, put after the earlier ones; nothing else changes (60_exceptions.md R135). -/
def State.respondDump (s : State) : State := { s with rsp := s.rsp ++ [⟨.dump, some s.snapshot⟩] }

/-- The line is the dump command: its tokens are exactly ["dump"] (60_exceptions.md R135). -/
def isDump (line : Line) : Bool := tokens line == [chars ['d', 'u', 'm', 'p']]

/-- `transact(s, line)` (00_scope.md R15). -/
def transact (s : State) (line : Line) : Result :=
  if isDump line then .next s.respondDump
  else match decode line with
    | .error k => .next (s.respond (.decodeFault k))
    | .ok i => exec i s

/-- `execute(s, b)` on a bundle given as bits: refused where the bundle has no meaning
(40_execute_common.md R77, 30_encoding.md R75). -/
def executeBundle (w : BitVec 86) (s : State) : Result :=
  match decodeBundle w with
  | some i => exec i s
  | none => .refused .unusedBundle

/-- The host sends one more line on `req` (00_scope.md R13, R14). -/
def State.send (s : State) (line : Line) : State := { s with req := s.req ++ [line] }

/-- The next request: the oldest line is taken and processed. With no line waiting the block waits and
nothing changes (00_scope.md R14, 70_reset_and_hazards.md R141; log 2). -/
def nextRequest (s : State) : Result :=
  match s.req with
  | [] => .next s
  | line :: later => transact { s with req := later } line

/-- The line that holds a table word's instruction; for bits that are no instruction, the empty line, which
the decoder refuses (log 12). -/
def tableWordLine (nbits w : Nat) : Line := (lineOfTableWord nbits w).getD []

end Sys2Proof.Machine
end

