-- ==== Sys2Proof/Machine/Step.lean ====
section
/-! DEFINITION. One step: one request (00_scope.md R14, 70_reset_and_hazards.md R149). -/

namespace Sys2Proof.Machine

/-- One request processed whole, or waiting when none is there. -/
def step (s : State) : Host.Outcome State Fault Refusal := nextRequest s

/-- s with a table word's instruction as the request that step takes next (log 12). -/
def State.withFetchWord (s : State) (nbits w : Nat) : State :=
  { s with req := tableWordLine nbits w :: s.req }

end Sys2Proof.Machine
end

