-- ==== Sys2Proof/Safety.lean ====
section
/-! DEFINITION. The terms that claims use: what a state must satisfy, what a run is, and what an instruction
keeps, answers and does to the pc. -/

namespace Sys2Proof.Machine

/-- An address of the window [START_ADDR, START_ADDR + VALID_MEM) (00_scope.md R9). -/
def InWindow (s : State) (a : Nat) : Prop :=
  u64 s.startAddr ≤ a ∧ a < u64 s.startAddr + u64 s.validMem

/-- The snapshot is there exactly when the status is DUMP, and shows O = 0 (00_scope.md R13,
60_exceptions.md R135, R136). -/
def ResponseOk (r : Response) : Prop :=
  (r.snapshot.isSome = true ↔ r.status = .dump) ∧ ∀ p, r.snapshot = some p → p.O = false

/-- The invariant of the machine: memory canonical (log 4) and inside the window (10_state.md R40), the
configuration within 00_scope.md R9, O = 0 (10_state.md R33), responses formed as R13 says. -/
structure StateInv (s : State) : Prop where
  memory_wf : Memory.wf s.mem
  memory_in_window : ∀ c ∈ s.mem, InWindow s c.1
  capacity : u64 s.validMem ≤ s.memCapacity
  window_fits : u64 s.startAddr + u64 s.validMem ≤ 2 ^ 64
  overflow_clear : s.O = false
  responses : ∀ r ∈ s.rsp, ResponseOk r

/-- A run: the requests processed one after the other (70_reset_and_hazards.md R150, 00_scope.md R14). -/
def serve (s : State) : List Line → Result
  | [] => .next s
  | line :: later =>
    match transact s line with
    | .next t => serve t later
    | .fault k => .fault k
    | .refused k => .refused k

/-- Every register outside the list keeps its value. -/
def KeepsRegs (s t : State) (written : List (Fin 16)) : Prop :=
  ∀ r, r ∉ written → t.reg r = s.reg r

/-- Z, S and O keep their values. -/
def KeepsFlags (s t : State) : Prop := t.Z = s.Z ∧ t.S = s.S ∧ t.O = s.O

/-- Every byte at an address outside the set reads as before. -/
def KeepsBytes (s t : State) (stored : Nat → Prop) : Prop :=
  ∀ a, ¬ stored a → t.mem.read a = s.mem.read a

/-- No byte. -/
def noByte : Nat → Prop := fun _ => False

/-- The eight bytes of the quad at an address. -/
def quadAt (a : Nat) : Nat → Prop := fun b => a ≤ b ∧ b < a + 8

/-- The quad at an address lies in the window, in exact integers (20_memory.md R46). -/
def QuadInWindow (s : State) (a : Nat) : Prop :=
  u64 s.startAddr ≤ a ∧ a + 8 ≤ u64 s.startAddr + u64 s.validMem

/-- The bytes at a, a + 1, ..., a + 7 are those of v, the lowest first (20_memory.md R50). -/
def HoldsQuad (s : State) (a : Nat) (v : Word) : Prop :=
  ∀ j < 8, (s.mem.read (a + j)).toNat = u64 v / 256 ^ j % 256

/-- START_ADDR, VALID_MEM, MEM_CAPACITY and the two parameters keep their values. -/
def KeepsConfig (s t : State) : Prop :=
  t.startAddr = s.startAddr ∧ t.validMem = s.validMem ∧ t.memCapacity = s.memCapacity ∧
    t.haltPcPolicy = s.haltPcPolicy ∧ t.modqBothZeroFlags = s.modqBothZeroFlags

/-- Exactly one response, with this status and no snapshot; the waiting requests stay. -/
def Answers (s t : State) (st : Status) : Prop := t.rsp = s.rsp ++ [⟨st, none⟩] ∧ t.req = s.req

/-- The latch and the configuration stay, and the status is OK. -/
def AnswersOk (s t : State) : Prop := t.H = s.H ∧ KeepsConfig s t ∧ Answers s t .ok

/-- `advance(n)` (40_execute_common.md R87). -/
def PcAdvances (s t : State) (n : Nat) : Prop :=
  (s.H = false → u64 t.pc = (u64 s.pc + n) % 2 ^ 64) ∧ (s.H = true → t.pc = s.pc)

/-- `transfer(target)` (40_execute_common.md R87). -/
def PcTransfers (s t : State) (target : Word) : Prop :=
  (s.H = false ∨ s.haltPcPolicy = .freezeAdvanceOnly → t.pc = target) ∧
    (s.H = true ∧ s.haltPcPolicy = .freezeAll → t.pc = s.pc)

/-- The flags a result r sets: O = 0, Z = 1 iff r = 0, S = 1 iff s64(r) < 0 (40_execute_common.md R83). -/
def FlagsFrom (t : State) (r : Word) : Prop :=
  t.O = false ∧ (t.Z = true ↔ u64 r = 0) ∧ (t.S = true ↔ s64 r < 0)

/-- The instruction answers the fault and changes nothing but the responses (40_execute_common.md R79). -/
def Faults (i : Instr) (s : State) (k : ExecFault) : Prop :=
  exec i s = .next { s with rsp := s.rsp ++ [⟨.execFault k, none⟩] }

/-- A register index above 15 in either field: REG_RANGE and nothing else (40_execute_common.md R80). -/
def PairRangeFaults (mk : RegIdx → RegIdx → Instr) : Prop :=
  ∀ s ra rb, 15 < ra.toNat ∨ 15 < rb.toNat → Faults (mk ra rb) s .regRange

/-- An ALU operation that completes on every pair of registers that `guard` admits: `value B A r` holds of
the result r, the flags come from r, the pc advances by 2, and nothing else changes. -/
def AluCompletes (mk : RegIdx → RegIdx → Instr) (guard : Word → Word → Prop)
    (value : Word → Word → Word → Prop) : Prop :=
  ∀ (s : State) (ra rb : RegIdx) (a b : Fin 16), ra.toNat = a.val → rb.toNat = b.val →
    guard (s.reg b) (s.reg a) →
    ∃ t, exec (mk ra rb) s = .next t ∧ value (s.reg b) (s.reg a) (t.reg b) ∧ FlagsFrom t (t.reg b) ∧
      PcAdvances s t 2 ∧ KeepsRegs s t [b] ∧ KeepsBytes s t noByte ∧ AnswersOk s t

/-- A conditional move that completes always, and moves at exactly the listed values of (Z, S). -/
def MovesAt (mk : RegIdx → RegIdx → Instr) (at_ : List (Bool × Bool)) : Prop :=
  ∀ (s : State) (ra rb : RegIdx) (a b : Fin 16), ra.toNat = a.val → rb.toNat = b.val →
    ∃ t, exec (mk ra rb) s = .next t ∧
      t.reg b = (if (s.Z, s.S) ∈ at_ then s.reg a else s.reg b) ∧ PcAdvances s t 2 ∧
      KeepsRegs s t [b] ∧ KeepsFlags s t ∧ KeepsBytes s t noByte ∧ AnswersOk s t

/-- A jump that completes always, and is taken at exactly the listed values of (Z, S). -/
def JumpsAt (mk : Word → Instr) (at_ : List (Bool × Bool)) : Prop :=
  ∀ (s : State) (target : Word), ∃ t, exec (mk target) s = .next t ∧
    ((s.Z, s.S) ∈ at_ → PcTransfers s t target) ∧ ((s.Z, s.S) ∉ at_ → PcAdvances s t 9) ∧
    KeepsRegs s t [] ∧ KeepsFlags s t ∧ KeepsBytes s t noByte ∧ AnswersOk s t

/-- The seven ALU operations. -/
def isAlu : Instr → Bool
  | .addq _ _ | .subq _ _ | .mulq _ _ | .modq _ _ | .divq _ _ | .andq _ _ | .xorq _ _ => true
  | .nop | .halt | .rrmovq _ _ | .irmovq _ _ | .rmmovq _ _ _ | .mrmovq _ _ _ | .pushq _ | .popq _
  | .call _ | .ret | .jmp _ | .je _ | .jne _ | .jl _ | .jle _ | .jg _ | .jge _ | .cmove _ _
  | .cmovne _ _ | .cmovl _ _ | .cmovle _ _ | .cmovg _ _ | .cmovge _ _ => false

/-- The faults an instruction can answer, from the column "raised by" (60_exceptions.md R123). -/
def raisedBy : Instr → List ExecFault
  | .nop | .halt | .jmp _ | .je _ | .jne _ | .jl _ | .jle _ | .jg _ | .jge _ => []
  | .rrmovq _ _ | .irmovq _ _ | .addq _ _ | .subq _ _ | .mulq _ _ | .andq _ _ | .xorq _ _
  | .cmove _ _ | .cmovne _ _ | .cmovl _ _ | .cmovle _ _ | .cmovg _ _ | .cmovge _ _ => [.regRange]
  | .rmmovq _ _ _ | .mrmovq _ _ _ | .popq _ => [.regRange, .memBounds]
  | .pushq _ => [.regRange, .pushSpGuard, .memBounds]
  | .call _ => [.callSpZero, .memBounds]
  | .ret => [.memBounds]
  | .divq _ _ => [.regRange, .divZero, .divOverflow]
  | .modq _ _ => [.regRange, .modBothZero, .divOverflow]

/-- The indices of the registers an instruction writes, the stack pointer's among them
(10_state.md R26). -/
def writtenRegs : Instr → List Nat
  | .irmovq _ rb => [rb.toNat]
  | .mrmovq _ _ ra => [ra.toNat]
  | .pushq _ | .call _ | .ret => [4]
  | .popq ra => [ra.toNat, 4]
  | .rrmovq _ rb | .addq _ rb | .subq _ rb | .mulq _ rb | .modq _ rb | .divq _ rb | .andq _ rb
  | .xorq _ rb | .cmove _ rb | .cmovne _ rb | .cmovl _ rb | .cmovle _ rb | .cmovg _ rb
  | .cmovge _ rb => [rb.toNat]
  | .nop | .halt | .rmmovq _ _ _ | .jmp _ | .je _ | .jne _ | .jl _ | .jle _ | .jg _ | .jge _ => []

/-- The indices of the registers an instruction reads or writes, the stack pointer's among them
(10_state.md R26). -/
def usedRegs (i : Instr) : List Nat :=
  i.regFields.map (·.toNat) ++
    match i with
    | .pushq _ | .popq _ | .call _ | .ret => [4]
    | _ => []

/-- The address an instruction stores its quad to, by the functions the meanings use; none for an
instruction that stores nothing (20_memory.md R52). -/
def storeAddress (i : Instr) (s : State) : Option Word :=
  match i with
  | .rmmovq _ d rb => (regOf rb).map fun b => effectiveAddress s b d
  | .pushq _ | .call _ => some (pushAddress s)
  | _ => none

/-- Each mnemonic of 30_encoding.md R73 with the operand count of its format (R70). -/
def specCounts : List (Token × Nat) :=
  ([chars ['n', 'o', 'p'], chars ['h', 'a', 'l', 't'], chars ['r', 'e', 't']].map fun m => (m, 0)) ++
  ([chars ['p', 'u', 's', 'h', 'q'], chars ['p', 'o', 'p', 'q'], chars ['c', 'a', 'l', 'l'],
    chars ['j', 'm', 'p'], chars ['j', 'e'], chars ['j', 'n', 'e'], chars ['j', 'l'],
    chars ['j', 'l', 'e'], chars ['j', 'g'], chars ['j', 'g', 'e']].map fun m => (m, 1)) ++
  ([chars ['r', 'r', 'm', 'o', 'v', 'q'], chars ['i', 'r', 'm', 'o', 'v', 'q'],
    chars ['r', 'm', 'm', 'o', 'v', 'q'], chars ['m', 'r', 'm', 'o', 'v', 'q'],
    chars ['a', 'd', 'd', 'q'], chars ['s', 'u', 'b', 'q'], chars ['m', 'u', 'l', 'q'],
    chars ['m', 'o', 'd', 'q'], chars ['d', 'i', 'v', 'q'], chars ['a', 'n', 'd', 'q'],
    chars ['x', 'o', 'r', 'q'], chars ['c', 'm', 'o', 'v', 'e'], chars ['c', 'm', 'o', 'v', 'n', 'e'],
    chars ['c', 'm', 'o', 'v', 'l'], chars ['c', 'm', 'o', 'v', 'l', 'e'],
    chars ['c', 'm', 'o', 'v', 'g'], chars ['c', 'm', 'o', 'v', 'g', 'e']].map fun m => (m, 2))

/-- Format N: no operand (30_encoding.md R70). -/
def specN : List (Token × Instr) :=
  [(chars ['n', 'o', 'p'], .nop),
   (chars ['h', 'a', 'l', 't'], .halt),
   (chars ['r', 'e', 't'], .ret)]

/-- Format R: a register (30_encoding.md R70). -/
def specR : List (Token × (RegIdx → Instr)) :=
  [(chars ['p', 'u', 's', 'h', 'q'], .pushq),
   (chars ['p', 'o', 'p', 'q'], .popq)]

/-- Format I: an immediate (30_encoding.md R70). -/
def specI : List (Token × (Word → Instr)) :=
  [(chars ['c', 'a', 'l', 'l'], .call),
   (chars ['j', 'm', 'p'], .jmp),
   (chars ['j', 'e'], .je),
   (chars ['j', 'n', 'e'], .jne),
   (chars ['j', 'l'], .jl),
   (chars ['j', 'l', 'e'], .jle),
   (chars ['j', 'g'], .jg),
   (chars ['j', 'g', 'e'], .jge)]

/-- Format RR: rA, then rB (30_encoding.md R70). -/
def specRR : List (Token × (RegIdx → RegIdx → Instr)) :=
  [(chars ['r', 'r', 'm', 'o', 'v', 'q'], .rrmovq),
   (chars ['a', 'd', 'd', 'q'], .addq),
   (chars ['s', 'u', 'b', 'q'], .subq),
   (chars ['m', 'u', 'l', 'q'], .mulq),
   (chars ['m', 'o', 'd', 'q'], .modq),
   (chars ['d', 'i', 'v', 'q'], .divq),
   (chars ['a', 'n', 'd', 'q'], .andq),
   (chars ['x', 'o', 'r', 'q'], .xorq),
   (chars ['c', 'm', 'o', 'v', 'e'], .cmove),
   (chars ['c', 'm', 'o', 'v', 'n', 'e'], .cmovne),
   (chars ['c', 'm', 'o', 'v', 'l'], .cmovl),
   (chars ['c', 'm', 'o', 'v', 'l', 'e'], .cmovle),
   (chars ['c', 'm', 'o', 'v', 'g'], .cmovg),
   (chars ['c', 'm', 'o', 'v', 'g', 'e'], .cmovge)]

/-- The line decodes by its one operand token: the token's fault, or the instruction of the operand
(30_encoding.md R62, R70). -/
def DecodesOne {α : Type} (line : Line) (p : Except DecodeFault α) (mk : α → Instr) : Prop :=
  (∀ k, p = .error k → decode line = .error k) ∧ ∀ x, p = .ok x → decode line = .ok (mk x)

/-- The line decodes by its two operand tokens from left to right: the first token's fault, else the second
token's, else the instruction of the operands (30_encoding.md R62, R70). -/
def DecodesTwo {α β : Type} (line : Line) (p : Except DecodeFault α) (q : Except DecodeFault β)
    (mk : α → β → Instr) : Prop :=
  (∀ k, p = .error k → decode line = .error k) ∧
  (∀ x k, p = .ok x → q = .error k → decode line = .error k) ∧
  ∀ x y, p = .ok x → q = .ok y → decode line = .ok (mk x y)

/-- The names of the snapshot's lines in their order, each with the text of its value: the 16 registers, the
flag summary, the pc, START_ADDR, VALID_MEM (60_exceptions.md R137). -/
def specSnapshotText (p : Snapshot) : List (List Byte × List Byte) :=
  (([
   chars ['r', '0'], chars ['r', '1'], chars ['r', '2'], chars ['r', '3'], chars ['r', '4'],
   chars ['r', '5'], chars ['r', '6'], chars ['r', '7'], chars ['r', '8'], chars ['r', '9'],
   chars ['r', '1', '0'], chars ['r', '1', '1'], chars ['r', '1', '2'], chars ['r', '1', '3'], chars ['r', '1', '4'],
   chars ['r', '1', '5']] : List (List Byte)).zip (p.x.toList.map hexWord)) ++
  [(chars ['f', 'l', 'a', 'g', 's'], flagSummary p), (chars ['p', 'c'], hexWord p.pc),
   (chars ['s', 't', 'a', 'r', 't', '_', 'a', 'd', 'd', 'r'], hexWord p.startAddr),
   (chars ['v', 'a', 'l', 'i', 'd', '_', 'm', 'e', 'm'], hexWord p.validMem)]

/-- The cond number that goes with each op number 0 to 29 (30_encoding.md R73). -/
def specConds : List Nat :=
  [0, 0, 0, 0, 0, 0, 0, 0, 0, 0, 0, 3, 4, 2, 1, 6, 5, 0, 0, 0, 0, 0, 0, 0, 3, 4, 2, 1, 6, 5]

end Sys2Proof.Machine
end

