-- ==== Sys2Proof/Certificates/Slice0/Obligations.lean ====
section
/-! DEFINITION. The statements for the provers, from the numbered rules of spec/. A docstring names the rule;
where a rule or a clause carries the spec's own mark [decision] or [derived], it names that mark too. -/

open Sys2Proof Sys2Proof.Machine

/-! ### Reset -/

/-- 70_reset_and_hazards.md R140 (marked [decision D16 to D20]): reset loads the configuration and the
RESET_ values, O = 0, H = 0; byte k of the window is RESET_MEM[k]; no request waits (R141). -/
def Obligations.RstLoadsEveryResetInput : Prop :=
  ∀ (c : Cfg) (r : ResetInputs), admitted c r →
    ∃ s, rst c r = .next s ∧ s.x = r.regs ∧ s.pc = r.pc ∧ s.Z = r.Z ∧ s.S = r.S ∧ s.O = false ∧
      s.H = false ∧ s.startAddr = c.startAddr ∧ s.validMem = c.validMem ∧
      s.memCapacity = c.memCapacity ∧ s.haltPcPolicy = r.haltPcPolicy ∧
      s.modqBothZeroFlags = r.modqBothZeroFlags ∧ s.req = [] ∧ s.rsp = [] ∧
      ∀ k (h : k < r.mem.length), s.mem.read (u64 c.startAddr + k) = r.mem[k]

/-- 00_scope.md R9 (marked [decision D15]) with 93_implementation_defined.md U13: reset is refused exactly
where VALID_MEM exceeds MEM_CAPACITY or the window passes 2^64; a RESET_MEM of another length than VALID_MEM
is no input either (the model's choice, log 10). -/
def Obligations.RstRefusesExactlyOtherConfigurations : Prop :=
  ∀ (c : Cfg) (r : ResetInputs), rst c r = .refused .configNotAdmitted ↔
    c.memCapacity < u64 c.validMem ∨ 2 ^ 64 < u64 c.startAddr + u64 c.validMem ∨
      r.mem.length ≠ u64 c.validMem

/-- The model's choice (logs 4 to 9): State.reset is what reset loads for START_ADDR = 0, VALID_MEM =
MEM_CAPACITY = 1024, all RESET_ values zero and the default parameters. -/
def Obligations.ResetStateIsRstOfNamedInputs : Prop :=
  rst { memCapacity := 1024, startAddr := 0, validMem := 1024 }
    { regs := Vector.replicate 16 0, pc := 0, Z := false, S := false, mem := List.replicate 1024 0,
      haltPcPolicy := .freezeAll, modqBothZeroFlags := .setZKeepOthers } = .next State.reset

/-! ### The invariant -/

/-- The invariant holds in State.reset (the model's values, logs 4 to 9). -/
def Obligations.ResetStateMeetsInvariant : Prop := StateInv State.reset

/-- The invariant holds after every admitted reset, whatever the RESET_ values. -/
def Obligations.EveryRstMeetsInvariant : Prop :=
  ∀ (c : Cfg) (r : ResetInputs) (s : State), rst c r = .next s → StateInv s

/-- Every step keeps the invariant: memory canonical and inside the window (10_state.md R40), the
configuration within 00_scope.md R9, O = 0 (10_state.md R33), every response formed as R13 says. -/
def Obligations.StepKeepsInvariant : Prop :=
  ∀ s t : State, StateInv s → step s = .next t → StateInv t

/-! ### Encoding -/

/-- Decoding the canonical line of an instruction gives the instruction, at every operand value that a line
can write (30_encoding.md R62, R76). -/
def Obligations.DecodeOfEncodeIsTheInstruction : Prop :=
  ∀ i : Instr, i.wellFormed → decode (encode i) = .ok i

/-- The bundle of an instruction stands for the instruction, at every value of its fields, and executing it
is executing the instruction (30_encoding.md R72, 40_execute_common.md R77; the layout is [decision D9]). -/
def Obligations.BundleOfInstructionRunsIt : Prop :=
  ∀ (i : Instr) (s : State), decodeBundle (encodeBundle i) = some i ∧
    executeBundle (encodeBundle i) s = exec i s

/-- 40_execute_common.md R77 and 30_encoding.md R75 ([decision D9]): a bundle is refused exactly when its op
is above 29 or its cond is not the op's; every other bundle answers a next state. -/
def Obligations.BundleRefusedExactlyWhenUnused : Prop :=
  ∀ (w : BitVec 86) (s : State),
    (executeBundle w s = .refused .unusedBundle ↔
      29 < (w.extractLsb' 81 5).toNat ∨
        specConds[(w.extractLsb' 81 5).toNat]? ≠ some (w.extractLsb' 78 3).toNat) ∧
    (executeBundle w s ≠ .refused .unusedBundle → ∃ t, executeBundle w s = .next t)

/-- Lines and bundles of 95_test_vectors.md, one or more of each format, written out byte by byte. -/
def Obligations.VectorLinesDecodeAsWritten : Prop :=
  decode (chars ['n', 'o', 'p']) = .ok .nop ∧
  decode (chars ['p', 'u', 's', 'h', 'q', ' ', 'r', '4']) = .ok (.pushq 4) ∧
  decode (chars ['a', 'd', 'd', 'q', '\t', 'r', '1', '\t', 'r', '2']) = .ok (.addq 1 2) ∧
  decode (chars ['r', 'r', 'm', 'o', 'v', 'q', ' ', 'r', '0', '5', ',', 'r', '1']) = .ok (.rrmovq 5 1) ∧
  decode (chars ['r', 'r', 'm', 'o', 'v', 'q', ' ', 'r', '1', '6', ',', 'r', '1']) = .ok (.rrmovq 16 1) ∧
  decode (chars ['i', 'r', 'm', 'o', 'v', 'q', ' ', '1', '0', '2', '4', ',', 'r', '4']) =
    .ok (.irmovq 0x400 4) ∧
  decode (chars ['r', 'm', 'm', 'o', 'v', 'q', ' ', 'r', '1', ',', '8', '(', 'r', '2', ')']) =
    .ok (.rmmovq 1 8 2) ∧
  decode (chars ['m', 'r', 'm', 'o', 'v', 'q', ' ', '9', '(', 'r', '0', ')', ',', 'r', '3']) =
    .ok (.mrmovq 9 0 3) ∧
  decode (chars ['j', 'n', 'e', ' ', '3', '0']) = .ok (.jne 0x1E) ∧
  decode (chars ['j', 'm', 'p']) = .error .operandCount ∧
  decode (chars ['A', 'D', 'D', 'Q', ' ', 'r', '1', ',', 'r', '2']) = .error .unknownMnemonic ∧
  encodeBundle (.addq 1 2) = 0x2200820000000000000000 ∧
  encodeBundle (.cmovge 1 8) = 0x3B40880000000000000000 ∧
  encodeBundle (.rmmovq 1 8 2) = 0x0800820000000000000008 ∧
  encodeBundle (.mrmovq 9 0 3) = 0x0A01800000000000000009 ∧
  encodeBundle (.jl 999) = 0x1A800000000000000003E7

/-- The table's word of an instruction (its bundle, 86 bits in 11 bytes) is read as the instruction, and the
next step after placing it is the instruction on the state as it was (the model's choice, log 12). -/
def Obligations.TableWordRunsAsTheNextStep : Prop :=
  ∀ (i : Instr) (s : State), i.wellFormed →
    decodeTableWord 88 (encodeBundle i).toNat = some i ∧
    step (s.withFetchWord 88 (encodeBundle i).toNat) = exec i s

/-- A line that decodes gives an instruction whose register indices are 0 to 99 (30_encoding.md R67,
[decision D4]). -/
def Obligations.DecodedInstructionIsWellFormed : Prop :=
  ∀ (line : Line) (i : Instr), decode line = .ok i → i.wellFormed

/-- 30_encoding.md R64 ([decision D3]): the line is split at the seven separators and empty pieces are
dropped. -/
def Obligations.TokensSplitAtSeparators : Prop :=
  (∀ c : Byte, isSep c = true ↔
    c.toNat ∈ [0x20, 0x09, 0x0A, 0x0B, 0x0C, 0x0D, 0x2C]) ∧
  tokens [] = [] ∧
  (∀ t : Token, t ≠ [] → (∀ c ∈ t, isSep c = false) → tokens t = [t]) ∧
  (∀ (a b : Line) (c : Byte), isSep c = true → tokens (a ++ c :: b) = tokens a ++ tokens b)

/-- 30_encoding.md R65: a line with no tokens, and no other line, is EMPTY_LINE. -/
def Obligations.LineWithoutTokensIsEmptyLine : Prop :=
  ∀ line : Line, decode line = .error .emptyLine ↔ tokens line = []

/-- 30_encoding.md R62, R66, R70, R71 ([decision D7, D8, D12]): a first token that is none of the 30 mnemonics is
UNKNOWN_MNEMONIC; then a wrong number of operand tokens is OPERAND_COUNT, whatever the tokens; with the right
number neither is reported, and the operand tokens, each of the kind its format gives it, are parsed from left to
right: the first that fails reports its fault, else the line is the instruction of the operands. -/
def Obligations.MnemonicThenOperandCount : Prop :=
  (∀ (line : Line) (m : Token) (args : List Token), tokens line = m :: args →
    (m ∉ specCounts.map Prod.fst → decode line = .error .unknownMnemonic) ∧
    (∀ n, (m, n) ∈ specCounts → args.length ≠ n → decode line = .error .operandCount) ∧
    (∀ n, (m, n) ∈ specCounts → args.length = n →
      decode line ≠ .error .unknownMnemonic ∧ decode line ≠ .error .operandCount)) ∧
  ∀ (line : Line) (a b : Token),
    (∀ f ∈ specN, tokens line = [f.1] → decode line = .ok f.2) ∧
    (∀ f ∈ specR, tokens line = [f.1, a] → DecodesOne line (parseReg a) f.2) ∧
    (∀ f ∈ specI, tokens line = [f.1, a] → DecodesOne line (parseImm a) f.2) ∧
    (∀ f ∈ specRR, tokens line = [f.1, a, b] → DecodesTwo line (parseReg a) (parseReg b) f.2) ∧
    (tokens line = [chars ['i', 'r', 'm', 'o', 'v', 'q'], a, b] →
      DecodesTwo line (parseImm a) (parseReg b) .irmovq) ∧
    (tokens line = [chars ['r', 'm', 'm', 'o', 'v', 'q'], a, b] →
      DecodesTwo line (parseReg a) (parseDisp b) fun ra m => .rmmovq ra m.1 m.2) ∧
    (tokens line = [chars ['m', 'r', 'm', 'o', 'v', 'q'], a, b] →
      DecodesTwo line (parseDisp a) (parseReg b) fun m ra => .mrmovq m.1 m.2 ra)

/-- 30_encoding.md R67 ([decision D4]): the register tokens are `r` with one or two decimal digits, read as
their decimal value; any other token is INVALID_REGISTER. -/
def Obligations.RegisterTokenGrammar : Prop :=
  (∀ (t : Token) (r : RegIdx), parseReg t = .ok r ↔
    (∃ d : Byte, t = [0x72, d] ∧ 0x30 ≤ d.toNat ∧ d.toNat ≤ 0x39 ∧ r.toNat = d.toNat - 0x30) ∨
    (∃ d e : Byte, t = [0x72, d, e] ∧ 0x30 ≤ d.toNat ∧ d.toNat ≤ 0x39 ∧ 0x30 ≤ e.toNat ∧
      e.toNat ≤ 0x39 ∧ r.toNat = 10 * (d.toNat - 0x30) + (e.toNat - 0x30))) ∧
  (∀ t : Token, (∀ r, parseReg t ≠ .ok r) → parseReg t = .error .invalidRegister)

/-- 30_encoding.md R68 ([decision D5]): a nonempty token of digits is the immediate of its decimal value when the
value is below 2^64 and INVALID_IMMEDIATE when it is not, however many digits it has; the empty token and a token
with a byte that is no digit are INVALID_IMMEDIATE. The value is that of decimal notation: 0 for no digit, and a
further digit d makes it ten times the value plus d; so the decimal spelling of n, with any leading zeros, is n. -/
def Obligations.ImmediateTokenGrammar : Prop :=
  (∀ t : Token, t ≠ [] → (∀ c ∈ t, 0x30 ≤ c.toNat ∧ c.toNat ≤ 0x39) →
    (digitsValue t < 2 ^ 64 → parseImm t = .ok (BitVec.ofNat 64 (digitsValue t))) ∧
    (2 ^ 64 ≤ digitsValue t → parseImm t = .error .invalidImmediate)) ∧
  digitsValue [] = 0 ∧
  (∀ (t : Token) (c : Byte), digitsValue (t ++ [c]) = 10 * digitsValue t + (c.toNat - 0x30)) ∧
  (∀ k n : Nat, n < 2 ^ 64 → parseImm (List.replicate k 0x30 ++ decimal n) = .ok (BitVec.ofNat 64 n)) ∧
  (∀ k n : Nat, 2 ^ 64 ≤ n → n < 10 ^ 20 →
    parseImm (List.replicate k 0x30 ++ decimal n) = .error .invalidImmediate) ∧
  parseImm [] = .error .invalidImmediate ∧
  (∀ (t : Token) (c : Byte), c ∈ t → (c.toNat < 0x30 ∨ 0x39 < c.toNat) →
    parseImm t = .error .invalidImmediate)

/-- 30_encoding.md R69 ([decision D6]): the shape `digits ( X )` first, then the value of D, then X as a
register token; a token without the shape is INVALID_DISPLACEMENT. -/
def Obligations.DisplacementTokenGrammar : Prop :=
  (∀ ds x : List Byte, ds ≠ [] → (∀ c ∈ ds, 0x30 ≤ c.toNat ∧ c.toNat ≤ 0x39) →
    (∀ c ∈ x, c ≠ 0x28 ∧ c ≠ 0x29) →
    (2 ^ 64 ≤ digitsValue ds →
      parseDisp (ds ++ 0x28 :: (x ++ [0x29])) = .error .invalidDisplacement) ∧
    (digitsValue ds < 2 ^ 64 → parseReg x = .error .invalidRegister →
      parseDisp (ds ++ 0x28 :: (x ++ [0x29])) = .error .invalidRegister) ∧
    (∀ r, digitsValue ds < 2 ^ 64 → parseReg x = .ok r →
      parseDisp (ds ++ 0x28 :: (x ++ [0x29])) = .ok (BitVec.ofNat 64 (digitsValue ds), r))) ∧
  (∀ t : Token, (¬ ∃ ds x : List Byte, ds ≠ [] ∧ (∀ c ∈ ds, 0x30 ≤ c.toNat ∧ c.toNat ≤ 0x39) ∧
      (∀ c ∈ x, c ≠ 0x28 ∧ c ≠ 0x29) ∧ t = ds ++ 0x28 :: (x ++ [0x29])) →
    parseDisp t = .error .invalidDisplacement)

/-! ### One request -/

/-- 00_scope.md R15: a step takes the oldest line and answers as `transact` does: the dump command, a decode
fault with the state untouched, or the decoded instruction executed. -/
def Obligations.StepProcessesOneRequest : Prop :=
  ∀ (s : State) (line : Line) (later : List Line), s.req = line :: later →
    (tokens line = [chars ['d', 'u', 'm', 'p']] →
      step s = .next { s with req := later, rsp := s.rsp ++ [⟨.dump, some s.snapshot⟩] }) ∧
    (tokens line ≠ [chars ['d', 'u', 'm', 'p']] → ∀ k, decode line = .error k →
      step s = .next { s with req := later, rsp := s.rsp ++ [⟨.decodeFault k, none⟩] }) ∧
    (∀ i, decode line = .ok i → step s = exec i { s with req := later })

/-- 60_exceptions.md R135: `dump` changes no state, with H 0 or 1, and shows the 16 registers, O, S, Z, the
pc, START_ADDR and VALID_MEM, and nothing of H, MEM_CAPACITY or memory. -/
def Obligations.DumpShowsTheStateAndChangesNothing : Prop :=
  (∀ (s : State) (line : Line) (later : List Line), s.req = line :: later →
    tokens line = [chars ['d', 'u', 'm', 'p']] →
    ∃ p : Snapshot, step s = .next { s with req := later, rsp := s.rsp ++ [⟨.dump, some p⟩] } ∧
      (∀ i : Fin 16, p.x[i] = s.reg i) ∧ p.O = s.O ∧ p.S = s.S ∧ p.Z = s.Z ∧ p.pc = s.pc ∧
      p.startAddr = s.startAddr ∧ p.validMem = s.validMem) ∧
  (∀ (s : State) (h : Bool) (c : Nat) (m : Memory),
    ({ s with H := h, memCapacity := c, mem := m } : State).snapshot = s.snapshot)

/-- 00_scope.md R14: each request is taken in arrival order and answered by exactly one response. -/
def Obligations.EachRequestHasOneResponse : Prop :=
  ∀ (s : State) (line : Line) (later : List Line), s.req = line :: later →
    ∃ t r, step s = .next t ∧ t.req = later ∧ t.rsp = s.rsp ++ [r]

/-- 00_scope.md R16, R21 and 60_exceptions.md R122: no state stops the machine; with no request waiting the
block waits and nothing changes (the model's reading of R141, log 2). -/
def Obligations.StepNeverStops : Prop :=
  (∀ s : State, ∃ t, step s = .next t) ∧ ∀ s : State, s.req = [] → step s = .next s

/-- 70_reset_and_hazards.md R150 ([decision D33]) with 00_scope.md R14: as many steps as lines wait process
exactly these lines, one after the other, and each gets one response. That several lines wait at once is the
model's queue (log 2), where the host of 60_exceptions.md R139 sends the next line only after the response: the
lines are processed as if each had been sent after the response before it. -/
def Obligations.RunServesEveryWaitingRequest : Prop :=
  ∀ (lines : List Line) (s : State), s.req = lines →
    ∃ t, core.run lines.length s = .next t ∧ serve { s with req := [] } lines = .next t ∧
      t.req = [] ∧ t.rsp.length = s.rsp.length + lines.length

/-- The numeric codes of 60_exceptions.md R123 ([decision D11]): no two outcomes share a code, and only the
listed codes are produced. -/
def Obligations.StatusCodesAreDistinct : Prop :=
  (∀ a b : Status, a.code = b.code → a = b) ∧
  ∀ a : Status, a.code.toNat ∈
    [0x00, 0x01, 0x02, 0x10, 0x11, 0x12, 0x13, 0x14, 0x15, 0x20, 0x21, 0x22, 0x23, 0x24, 0x25, 0x26]

/-- 60_exceptions.md R136 and R137 ([decision D31]): a value is written as 16 hexadecimal digits with leading
zeros, digit k from the left is the nibble of weight 16^(15 - k); the flag summary at each value of (O, S, Z); a
snapshot is 20 lines, `name: value` in the order of the layout, each value that of the field it names. -/
def Obligations.SnapshotTextDigits : Prop :=
  (∀ v : Word, (hexWord v).length = 16 ∧ ∀ k < 16, (hexWord v)[k]? =
    (chars ['0', '1', '2', '3', '4', '5', '6', '7', '8', '9', 'a', 'b', 'c', 'd', 'e', 'f'])[
      u64 v / 16 ^ (15 - k) % 16]?) ∧
  ∀ p : Snapshot,
    (p.O = false → p.S = false → p.Z = false → flagSummary p = chars ['-', '-', '-']) ∧
    (p.O = false → p.S = false → p.Z = true → flagSummary p = chars ['-', '-', 'Z']) ∧
    (p.O = false → p.S = true → p.Z = false → flagSummary p = chars ['-', 'S', '-']) ∧
    (p.O = false → p.S = true → p.Z = true → flagSummary p = chars ['-', 'S', 'Z']) ∧
    (p.O = true → p.S = false → p.Z = false → flagSummary p = chars ['O', '-', '-']) ∧
    (p.O = true → p.S = false → p.Z = true → flagSummary p = chars ['O', '-', 'Z']) ∧
    (p.O = true → p.S = true → p.Z = false → flagSummary p = chars ['O', 'S', '-']) ∧
    (p.O = true → p.S = true → p.Z = true → flagSummary p = chars ['O', 'S', 'Z']) ∧
    (snapshotLines p).length = 20 ∧
    snapshotLines p = (specSnapshotText p).map fun l => l.1 ++ chars [':', ' '] ++ l.2

/-! ### Rules over all instructions -/

/-- 60_exceptions.md R123, the column "raised by" (a row of it is [decision D25]), and 40_execute_common.md R78:
an instruction answers OK, a fault the column gives it, or, for halt alone, HALTED; never with a snapshot. -/
def Obligations.StatusesComeOnlyFromTheirInstructions : Prop :=
  ∀ (i : Instr) (s t : State), exec i s = .next t →
    ∃ st, t.rsp = s.rsp ++ [⟨st, none⟩] ∧
      ((st = .ok ∧ i ≠ .halt) ∨ (st = .halted ∧ i = .halt) ∨ ∃ k, st = .execFault k ∧ k ∈ raisedBy i)

/-- 10_state.md R24: an instruction that names an index outside 0..15 fails with REG_RANGE and changes no
state. -/
def Obligations.IndexAbove15ChangesNothing : Prop :=
  ∀ (i : Instr) (s : State), (∃ r ∈ i.regFields, 15 < r.toNat) → Faults i s .regRange

/-- 40_execute_common.md R79: a faulting instruction changes no state; MOD_BOTH_ZERO, raised by modq alone,
changes flags only and sets Z. -/
def Obligations.FaultsChangeNothingButModqFlags : Prop :=
  ∀ (i : Instr) (s t : State) (k : ExecFault), exec i s = .next t →
    t.rsp = s.rsp ++ [⟨.execFault k, none⟩] →
    (k ≠ .modBothZero → t = { s with rsp := t.rsp }) ∧
    (k = .modBothZero → (∃ ra rb, i = .modq ra rb) ∧ t.Z = true ∧
      t = { s with Z := t.Z, S := t.S, O := t.O, rsp := t.rsp })

/-- 40_execute_common.md R84: nop, halt, irmovq, rrmovq, the cmov instructions, the jumps, rmmovq, mrmovq,
pushq, popq, call and ret never write a flag. -/
def Obligations.OnlyAluOperationsWriteFlags : Prop :=
  ∀ (i : Instr) (s t : State), isAlu i = false → exec i s = .next t → KeepsFlags s t

/-- 10_state.md R33 (its last sentence [derived]): no instruction sets O. -/
def Obligations.OverflowFlagIsNeverSet : Prop :=
  ∀ (i : Instr) (s t : State), exec i s = .next t → t.O = true → s.O = true

/-- 40_execute_common.md R82 ([derived]): Z = S = 1 is left only where it was, or by a MOD_BOTH_ZERO fault
taken while S = 1 under SetZKeepOthers. -/
def Obligations.ZeroAndSignOnlyFromModqFault : Prop :=
  ∀ (i : Instr) (s t : State), exec i s = .next t → t.Z = true → t.S = true →
    (s.Z = true ∧ s.S = true) ∨
    (s.S = true ∧ s.modqBothZeroFlags = .setZKeepOthers ∧
      t.rsp = s.rsp ++ [⟨.execFault .modBothZero, none⟩])

/-- 10_state.md R35 ([decision D20]): halt sets the latch, no other instruction does, and none clears it. -/
def Obligations.OnlyHaltSetsTheLatch : Prop :=
  ∀ (i : Instr) (s t : State), exec i s = .next t → (t.H = true ↔ s.H = true ∨ i = .halt)

/-- 10_state.md R30 and 40_execute_common.md R87 ([decision D21]): under FreezeAll no instruction writes the
pc while H = 1; under FreezeAdvanceOnly only taken jumps, call and ret do. -/
def Obligations.PcFrozenWhileHalted : Prop :=
  ∀ (i : Instr) (s t : State), exec i s = .next t → s.H = true → t.pc ≠ s.pc →
    s.haltPcPolicy = .freezeAdvanceOnly ∧
      ((∃ target, i ∈ ([.call target, .jmp target, .je target, .jne target, .jl target, .jle target,
        .jg target, .jge target] : List Instr)) ∨ i = .ret)

/-- 40_execute_common.md R87 ([decision D21]): while H = 1 every other effect still takes place: from two
states that differ in H alone, the states after an instruction differ in H and the pc alone. -/
def Obligations.HaltedBlockStillExecutes : Prop :=
  ∀ (i : Instr) (s : State), ∃ t u, exec i { s with H := false } = .next t ∧
    exec i { s with H := true } = .next u ∧ u = { t with H := true, pc := u.pc }

/-- 10_state.md R37 ([decision D15]) and 00_scope.md R11: no step changes START_ADDR, VALID_MEM,
MEM_CAPACITY or a parameter. -/
def Obligations.StepKeepsConfiguration : Prop :=
  ∀ s t : State, step s = .next t → KeepsConfig s t

/-- 10_state.md R38 ([derived]): MEM_CAPACITY has no effect on what an instruction does. -/
def Obligations.CapacityHasNoEffect : Prop :=
  ∀ (i : Instr) (s t : State) (c : Nat), exec i s = .next t →
    exec i { s with memCapacity := c } = .next { t with memCapacity := c }

/-- 10_state.md R26, the column "writes": every register outside it keeps its value, for every instruction;
the implicit ones are x[4] of pushq, popq, call and ret. -/
def Obligations.RegisterWriteFrame : Prop :=
  ∀ (i : Instr) (s t : State) (r : Fin 16), exec i s = .next t → r.val ∉ writtenRegs i →
    t.reg r = s.reg r

/-- 10_state.md R26, both columns: a register that an instruction neither names nor uses as stack pointer
does not bear on what it does, and keeps its value. -/
def Obligations.UnusedRegisterIsInert : Prop :=
  ∀ (i : Instr) (s t : State) (r : Fin 16) (v : Word), r.val ∉ usedRegs i → exec i s = .next t →
    exec i (s.setReg r v) = .next (t.setReg r v)

/-- 20_memory.md R44, R52: rmmovq, pushq and call store one quad at the address their meaning computes, and
every byte outside it reads as before; after any other instruction every byte reads as before. -/
def Obligations.MemoryWriteFrame : Prop :=
  ∀ (i : Instr) (s t : State) (x : Nat), Memory.wf s.mem → exec i s = .next t →
    (∀ a, storeAddress i s = some a → ¬ quadAt (u64 a) x) → t.mem.read x = s.mem.read x

/-- 00_scope.md R15: what an instruction does depends on neither the waiting requests nor the responses given
before. -/
def Obligations.ExecIgnoresThePorts : Prop :=
  ∀ (i : Instr) (s t : State) (q : List Line) (p : List Response), exec i s = .next t →
    ∃ r, t.req = s.req ∧ t.rsp = s.rsp ++ [r] ∧
      exec i { s with req := q, rsp := p } = .next { t with req := q, rsp := p ++ [r] }

/-! ### nop, halt, moves -/

/-- 41_nop_halt.md R88: nop advances the pc by 1, and with H = 1 changes nothing; `nop r1` is
OPERAND_COUNT. -/
def Obligations.NopAdvancesByOne : Prop :=
  (∀ s : State, ∃ t, exec .nop s = .next t ∧ PcAdvances s t 1 ∧ KeepsRegs s t [] ∧ KeepsFlags s t ∧
    KeepsBytes s t noByte ∧ AnswersOk s t) ∧
  decode (chars ['n', 'o', 'p', ' ', 'r', '1']) = .error .operandCount

/-- 41_nop_halt.md R89: halt sets H, leaves the pc and everything else, and answers HALTED, also when H is
already 1. -/
def Obligations.HaltSetsTheLatchOnly : Prop :=
  ∀ s : State, ∃ t, exec .halt s = .next t ∧ t.H = true ∧ t.pc = s.pc ∧ KeepsRegs s t [] ∧
    KeepsFlags s t ∧ KeepsBytes s t noByte ∧ KeepsConfig s t ∧ Answers s t .halted

/-- 42_moves.md R90 and R91: irmovq and rrmovq write V or x[rA] to x[rB], advance by 10 or 2, and leave
flags, memory and the other registers; a bad index is REG_RANGE with no state changed. -/
def Obligations.MovesWriteTheDestination : Prop :=
  (∀ (s : State) (v : Word) (rb : RegIdx), 15 < rb.toNat → Faults (.irmovq v rb) s .regRange) ∧
  (∀ (s : State) (v : Word) (rb : RegIdx) (b : Fin 16), rb.toNat = b.val →
    ∃ t, exec (.irmovq v rb) s = .next t ∧ t.reg b = v ∧ PcAdvances s t 10 ∧ KeepsRegs s t [b] ∧
      KeepsFlags s t ∧ KeepsBytes s t noByte ∧ AnswersOk s t) ∧
  PairRangeFaults .rrmovq ∧
  (∀ (s : State) (ra rb : RegIdx) (a b : Fin 16), ra.toNat = a.val → rb.toNat = b.val →
    ∃ t, exec (.rrmovq ra rb) s = .next t ∧ t.reg b = s.reg a ∧ PcAdvances s t 2 ∧
      KeepsRegs s t [b] ∧ KeepsFlags s t ∧ KeepsBytes s t noByte ∧ AnswersOk s t)

/-! ### The ALU -/

/-- 43_alu.md R93, R94, R96, R97: sum, difference B - A, bitwise exclusive or and bitwise and of 64-bit words,
the flags from the result; a bad index is REG_RANGE. (That subq wraps is [decision D22] in R92.) -/
def Obligations.AddqSubqXorqAndqResults : Prop :=
  PairRangeFaults .addq ∧ PairRangeFaults .subq ∧ PairRangeFaults .xorq ∧ PairRangeFaults .andq ∧
  AluCompletes .addq (fun _ _ => True) (fun B A r => u64 r = (u64 B + u64 A) % 2 ^ 64) ∧
  AluCompletes .subq (fun _ _ => True)
    (fun B A r => (u64 r : Int) = ((u64 B : Int) - (u64 A : Int)) % 2 ^ 64) ∧
  AluCompletes .xorq (fun _ _ => True)
    (fun B A r => ∀ k < 64, r.getLsbD k = (B.getLsbD k != A.getLsbD k)) ∧
  AluCompletes .andq (fun _ _ => True)
    (fun B A r => ∀ k < 64, r.getLsbD k = (B.getLsbD k && A.getLsbD k))

/-- 43_alu.md R95 ([decision D22]) and R92: mulq gives the low 64 bits of the exact product, the same whether
the operands are read signed or unsigned. -/
def Obligations.MulqKeepsTheLowProduct : Prop :=
  PairRangeFaults .mulq ∧
  AluCompletes .mulq (fun _ _ => True)
    (fun B A r => (u64 r : Int) = (s64 B * s64 A) % 2 ^ 64 ∧ u64 r = (u64 B * u64 A) % 2 ^ 64)

/-- 43_alu.md R98 and R92 ([decision D23, D25]): divq gives the quotient truncated toward zero: the rest has
the sign of the dividend and is smaller than the divisor; divisor 0 is DIV_ZERO, -2^63 / -1 is DIV_OVERFLOW. -/
def Obligations.DivqTruncatesTowardZero : Prop :=
  PairRangeFaults .divq ∧
  AluCompletes .divq (fun B A => s64 A ≠ 0 ∧ ¬ (s64 B = -2 ^ 63 ∧ s64 A = -1))
    (fun B A r => ∃ rest : Int, s64 B = s64 r * s64 A + rest ∧ rest.natAbs < (s64 A).natAbs ∧
      (rest ≠ 0 → (0 < rest ↔ 0 < s64 B))) ∧
  (∀ (s : State) (ra rb : RegIdx) (a b : Fin 16), ra.toNat = a.val → rb.toNat = b.val →
    (s64 (s.reg a) = 0 → Faults (.divq ra rb) s .divZero) ∧
    (s64 (s.reg b) = -2 ^ 63 → s64 (s.reg a) = -1 → Faults (.divq ra rb) s .divOverflow))

/-- 43_alu.md R99 and R92 ([decision D24, D25, D26]): modq gives the remainder with the sign of the dividend;
a divisor alone 0 succeeds and writes only the pc; both 0 is MOD_BOTH_ZERO with its flag write; -2^63 % -1 is
DIV_OVERFLOW. -/
def Obligations.ModqRemainderAndZeroDivisors : Prop :=
  PairRangeFaults .modq ∧
  AluCompletes .modq (fun B A => s64 A ≠ 0 ∧ ¬ (s64 B = -2 ^ 63 ∧ s64 A = -1))
    (fun B A r => (∃ q : Int, s64 B = q * s64 A + s64 r) ∧ (s64 r).natAbs < (s64 A).natAbs ∧
      (s64 r ≠ 0 → (0 < s64 r ↔ 0 < s64 B))) ∧
  (∀ (s : State) (ra rb : RegIdx) (a b : Fin 16), ra.toNat = a.val → rb.toNat = b.val →
    (s64 (s.reg a) = 0 → s64 (s.reg b) ≠ 0 → ∃ t, exec (.modq ra rb) s = .next t ∧
      PcAdvances s t 2 ∧ KeepsRegs s t [] ∧ KeepsFlags s t ∧ KeepsBytes s t noByte ∧
      AnswersOk s t) ∧
    (s64 (s.reg a) = 0 → s64 (s.reg b) = 0 → s.modqBothZeroFlags = .setZKeepOthers →
      exec (.modq ra rb) s =
        .next { s with Z := true, rsp := s.rsp ++ [⟨.execFault .modBothZero, none⟩] }) ∧
    (s64 (s.reg a) = 0 → s64 (s.reg b) = 0 → s.modqBothZeroFlags = .zOnly →
      exec (.modq ra rb) s = .next { s with
        Z := true, S := false, O := false, rsp := s.rsp ++ [⟨.execFault .modBothZero, none⟩] }) ∧
    (s64 (s.reg b) = -2 ^ 63 → s64 (s.reg a) = -1 → Faults (.modq ra rb) s .divOverflow))

/-! ### Conditions: values are (Z, S), from the truth table of 40_execute_common.md R82 -/

/-- 44_cmov.md R100 to R105 and 40_execute_common.md R82 ([decision D10]): each conditional move moves at
exactly the (Z, S) of its column; a bad index is REG_RANGE also when the condition is false. -/
def Obligations.ConditionalMovesFollowTheTruthTable : Prop :=
  (MovesAt .cmove [(true, false)] ∧ PairRangeFaults .cmove) ∧
  (MovesAt .cmovne [(false, false), (false, true)] ∧ PairRangeFaults .cmovne) ∧
  (MovesAt .cmovl [(false, true)] ∧ PairRangeFaults .cmovl) ∧
  (MovesAt .cmovle [(false, true), (true, false), (true, true)] ∧ PairRangeFaults .cmovle) ∧
  (MovesAt .cmovg [(false, false)] ∧ PairRangeFaults .cmovg) ∧
  (MovesAt .cmovge [(false, false), (true, false), (true, true)] ∧ PairRangeFaults .cmovge)

/-- 45_jumps.md R106 to R112 and 40_execute_common.md R82 ([decision D10]; FreezeAdvanceOnly is the parameter of
[decision D21]): jmp is taken always, each conditional jump at exactly the (Z, S) of its column, and it advances
by 9 elsewhere. -/
def Obligations.JumpsFollowTheTruthTable : Prop :=
  JumpsAt .jmp [(false, false), (false, true), (true, false), (true, true)] ∧
  JumpsAt .je [(true, false)] ∧
  JumpsAt .jne [(false, false), (false, true)] ∧
  JumpsAt .jl [(false, true)] ∧
  JumpsAt .jle [(false, true), (true, false), (true, true)] ∧
  JumpsAt .jg [(false, false)] ∧
  JumpsAt .jge [(false, false), (true, false), (true, true)]

/-! ### Memory -/

/-- 46_load_store.md R114: rmmovq stores x[rA] at x[rB] + D; outside the window MEM_BOUNDS, a bad index
REG_RANGE, each with no state changed. (The address wraps by R53 [decision D13], the lowest byte goes lowest
by R50 [decision D14].) -/
def Obligations.RmmovqStoresTheQuad : Prop :=
  (∀ (s : State) (ra rb : RegIdx) (d : Word), 15 < ra.toNat ∨ 15 < rb.toNat →
    Faults (.rmmovq ra d rb) s .regRange) ∧
  (∀ (s : State) (ra rb : RegIdx) (d : Word) (a b : Fin 16) (ea : Nat),
    ra.toNat = a.val → rb.toNat = b.val → ea = (u64 (s.reg b) + u64 d) % 2 ^ 64 →
    (¬ QuadInWindow s ea → Faults (.rmmovq ra d rb) s .memBounds) ∧
    (QuadInWindow s ea → Memory.wf s.mem → ∃ t, exec (.rmmovq ra d rb) s = .next t ∧
      HoldsQuad t ea (s.reg a) ∧ KeepsBytes s t (quadAt ea) ∧ KeepsRegs s t [] ∧ KeepsFlags s t ∧
      PcAdvances s t 10 ∧ AnswersOk s t))

/-- 46_load_store.md R115: mrmovq loads the quad at x[rB] + D, formed from the old base, into x[rA]; outside
the window MEM_BOUNDS, a bad index REG_RANGE, each with no state changed. (Address and byte order as for
rmmovq.) -/
def Obligations.MrmovqLoadsTheQuad : Prop :=
  (∀ (s : State) (ra rb : RegIdx) (d : Word), 15 < ra.toNat ∨ 15 < rb.toNat →
    Faults (.mrmovq d rb ra) s .regRange) ∧
  (∀ (s : State) (ra rb : RegIdx) (d : Word) (a b : Fin 16) (ea : Nat),
    ra.toNat = a.val → rb.toNat = b.val → ea = (u64 (s.reg b) + u64 d) % 2 ^ 64 →
    (¬ QuadInWindow s ea → Faults (.mrmovq d rb ra) s .memBounds) ∧
    (QuadInWindow s ea → ∃ t, exec (.mrmovq d rb ra) s = .next t ∧ HoldsQuad s ea (t.reg a) ∧
      KeepsRegs s t [a] ∧ KeepsFlags s t ∧ KeepsBytes s t noByte ∧ PcAdvances s t 10 ∧
      AnswersOk s t))

/-- 20_memory.md R47 and R48, with R57: MemWrite fails exactly out of bounds; after it, MemRead of the same
address gives the value, byte j of the quad is bits 8j+7:8j, and every other byte is untouched. -/
def Obligations.MemReadReturnsTheLastWrite : Prop :=
  ∀ (s : State) (a v : Word), Memory.wf s.mem →
    (s.memWrite a v = none ↔ ¬ QuadInWindow s (u64 a)) ∧
    (s.memRead a = none ↔ ¬ QuadInWindow s (u64 a)) ∧
    ∀ t, s.memWrite a v = some t → Memory.wf t.mem ∧ t.memRead a = some v ∧ HoldsQuad t (u64 a) v ∧
      KeepsBytes s t (quadAt (u64 a)) ∧ t = { s with mem := t.mem }

/-- 20_memory.md R49 and R46: a quad with any byte outside the window fails as a whole, for reads and writes;
with every byte inside it succeeds. -/
def Obligations.PartlyOutsideAccessFails : Prop :=
  ∀ (s : State) (a v : Word),
    ((∃ j < 8, ¬ InWindow s (u64 a + j)) → s.memRead a = none ∧ s.memWrite a v = none) ∧
    ((∀ j < 8, InWindow s (u64 a + j)) →
      (∃ w, s.memRead a = some w) ∧ ∃ t, s.memWrite a v = some t)

/-! ### Stack and calls -/

/-- 47_stack_call.md R117, R121 (pushq r4 [derived], the order [decision D12]): REG_RANGE, then PUSH_SP_GUARD
below 8, then MEM_BOUNDS; else x[rA], read before x[4] changes, is stored at x[4] - 8 and x[4] lowered by 8. -/
def Obligations.PushqStoresBelowTheStackPointer : Prop :=
  (∀ (s : State) (ra : RegIdx), 15 < ra.toNat → Faults (.pushq ra) s .regRange) ∧
  (∀ (s : State) (ra : RegIdx) (a : Fin 16), ra.toNat = a.val →
    (u64 (s.reg 4) < 8 → Faults (.pushq ra) s .pushSpGuard) ∧
    (8 ≤ u64 (s.reg 4) → ¬ QuadInWindow s (u64 (s.reg 4) - 8) → Faults (.pushq ra) s .memBounds) ∧
    (8 ≤ u64 (s.reg 4) → QuadInWindow s (u64 (s.reg 4) - 8) → Memory.wf s.mem →
      ∃ t, exec (.pushq ra) s = .next t ∧ HoldsQuad t (u64 (s.reg 4) - 8) (s.reg a) ∧
        u64 (t.reg 4) = u64 (s.reg 4) - 8 ∧ KeepsBytes s t (quadAt (u64 (s.reg 4) - 8)) ∧
        KeepsRegs s t [4] ∧ KeepsFlags s t ∧ PcAdvances s t 2 ∧ AnswersOk s t))

/-- 47_stack_call.md R118 ([decision D28]): popq loads the quad at x[4] and raises x[4] by 8, with no guard;
popq r4 leaves the loaded value plus 8. -/
def Obligations.PopqLoadsAtTheStackPointer : Prop :=
  (∀ (s : State) (ra : RegIdx), 15 < ra.toNat → Faults (.popq ra) s .regRange) ∧
  (∀ (s : State) (ra : RegIdx) (a : Fin 16), ra.toNat = a.val →
    (¬ QuadInWindow s (u64 (s.reg 4)) → Faults (.popq ra) s .memBounds) ∧
    (QuadInWindow s (u64 (s.reg 4)) → ∃ t v, exec (.popq ra) s = .next t ∧
      HoldsQuad s (u64 (s.reg 4)) v ∧
      (a ≠ 4 → t.reg a = v ∧ u64 (t.reg 4) = (u64 (s.reg 4) + 8) % 2 ^ 64) ∧
      (a = 4 → u64 (t.reg 4) = (u64 v + 8) % 2 ^ 64) ∧
      KeepsRegs s t [a, 4] ∧ KeepsFlags s t ∧ KeepsBytes s t noByte ∧ PcAdvances s t 2 ∧
      AnswersOk s t))

/-- 47_stack_call.md R119 (x[4] from 1 to 7 [derived], pc + 9 wraps [decision D27]): CALL_SP_ZERO for x[4] = 0
only, then MEM_BOUNDS; else pc + 9 is stored at x[4] - 8, x[4] lowered by 8, the pc transferred. -/
def Obligations.CallPushesTheReturnAddress : Prop :=
  ∀ (s : State) (target : Word) (q : Nat), q = (u64 (s.reg 4) + (2 ^ 64 - 8)) % 2 ^ 64 →
    (u64 (s.reg 4) = 0 → Faults (.call target) s .callSpZero) ∧
    (u64 (s.reg 4) ≠ 0 → ¬ QuadInWindow s q → Faults (.call target) s .memBounds) ∧
    (u64 (s.reg 4) ≠ 0 → QuadInWindow s q → Memory.wf s.mem →
      ∃ t ra, exec (.call target) s = .next t ∧ u64 ra = (u64 s.pc + 9) % 2 ^ 64 ∧
        HoldsQuad t q ra ∧ u64 (t.reg 4) = q ∧ PcTransfers s t target ∧ KeepsBytes s t (quadAt q) ∧
        KeepsRegs s t [4] ∧ KeepsFlags s t ∧ AnswersOk s t)

/-- 47_stack_call.md R120 ([decision D28]): ret transfers to the quad at x[4] and raises x[4] by 8, with no
guard; out of the window MEM_BOUNDS. -/
def Obligations.RetTransfersToThePoppedQuad : Prop :=
  ∀ s : State,
    (¬ QuadInWindow s (u64 (s.reg 4)) → Faults .ret s .memBounds) ∧
    (QuadInWindow s (u64 (s.reg 4)) → ∃ t v, exec .ret s = .next t ∧
      HoldsQuad s (u64 (s.reg 4)) v ∧ PcTransfers s t v ∧
      u64 (t.reg 4) = (u64 (s.reg 4) + 8) % 2 ^ 64 ∧ KeepsRegs s t [4] ∧ KeepsFlags s t ∧
      KeepsBytes s t noByte ∧ AnswersOk s t)

/-- 47_stack_call.md R119, R120, and 70_reset_and_hazards.md R143 ([derived]): with the stack top of R143, call
then ret comes back to pc + 9 with every register as it was. -/
def Obligations.CallThenRetComesBack : Prop :=
  ∀ (s : State) (target : Word), Memory.wf s.mem → s.H = false → 8 ≤ u64 (s.reg 4) →
    u64 s.startAddr ≤ u64 (s.reg 4) - 8 → u64 (s.reg 4) ≤ u64 s.startAddr + u64 s.validMem →
    ∃ t u, exec (.call target) s = .next t ∧ t.pc = target ∧ exec .ret t = .next u ∧
      u64 u.pc = (u64 s.pc + 9) % 2 ^ 64 ∧ KeepsRegs s u [] ∧ KeepsFlags s u

/-- 47_stack_call.md R117, R118, and 70_reset_and_hazards.md R143 ([derived]): with the stack top of R143, pushq
rA then popq rB moves x[rA] to x[rB], and x[4] is back where it was. -/
def Obligations.PushThenPopMovesTheRegister : Prop :=
  ∀ (s : State) (ra rb : RegIdx) (a b : Fin 16), ra.toNat = a.val → rb.toNat = b.val → b ≠ 4 →
    Memory.wf s.mem → 8 ≤ u64 (s.reg 4) →
    u64 s.startAddr ≤ u64 (s.reg 4) - 8 → u64 (s.reg 4) ≤ u64 s.startAddr + u64 s.validMem →
    ∃ t u, exec (.pushq ra) s = .next t ∧ exec (.popq rb) t = .next u ∧ u.reg b = s.reg a ∧
      KeepsRegs s u [b] ∧ KeepsFlags s u

/-- 47_stack_call.md R119 ([derived], 90_conflicts.md C5): in an admitted configuration, call with x[4] from 1
to 7 is MEM_BOUNDS; and 20_memory.md R46 ([derived]): with VALID_MEM below 8 no access succeeds. -/
def Obligations.LowStackPointerOrTinyWindowFails : Prop :=
  (∀ (s : State) (target : Word), StateInv s → 1 ≤ u64 (s.reg 4) → u64 (s.reg 4) ≤ 7 →
    Faults (.call target) s .memBounds) ∧
  (∀ (s : State) (a v : Word), u64 s.validMem < 8 → s.memRead a = none ∧ s.memWrite a v = none)
end

