-- ==== Sys2Proof/Laws/Memory.lean ====
section
/-! SUPPORT. The laws of memory (20_memory.md R47, R48, R57): every operation keeps the canonical form, a
write is read back, and it leaves every other byte alone. -/

namespace Sys2Proof.Machine.Memory

theorem wf_nil : wf ([] : Memory) := by simp [wf]

theorem wf_tail {c : Host.Cell} {m : Memory} (h : wf (c :: m)) : wf m :=
  ⟨(List.pairwise_cons.mp h.1).2, fun d hd => h.2 d (List.mem_cons_of_mem _ hd)⟩

theorem lt_of_wf {c d : Host.Cell} {m : Memory} (h : wf (c :: m)) (hd : d ∈ m) : c.1 < d.1 :=
  (List.pairwise_cons.mp h.1).1 d hd

/-- An address below every listed one reads as unlisted. -/
theorem read_below (m : Memory) (a : Nat) (h : ∀ c ∈ m, a < c.1) : m.read a = Config.unlistedByte := by
  induction m with
  | nil => rfl
  | cons c m ih =>
    have hc := h c (by simp)
    have : c.1 ≠ a := by omega
    simp only [read, this, if_false]
    exact ih fun d hd => h d (by simp [hd])

theorem wf_cons {a : Nat} {b : Byte} {m : Memory} (h : wf m) (hlt : ∀ c ∈ m, a < c.1) :
    wf (Memory.cons a b m) := by
  unfold Memory.cons
  split
  · exact h
  · rename_i hb
    refine ⟨List.pairwise_cons.mpr ⟨hlt, h.1⟩, ?_⟩
    intro c hc
    rcases List.mem_cons.mp hc with rfl | hc
    · exact hb
    · exact h.2 c hc

theorem read_cons {a : Nat} {b : Byte} {m : Memory} (hlt : ∀ c ∈ m, a < c.1) (x : Nat) :
    (Memory.cons a b m).read x = if x = a then b else m.read x := by
  unfold Memory.cons
  split
  · rename_i hb
    split
    · subst_vars
      exact read_below m _ hlt
    · rfl
  · simp only [read, eq_comm]

theorem mem_cons {a : Nat} {b : Byte} {m : Memory} {c : Host.Cell} (h : c ∈ Memory.cons a b m) :
    c.1 = a ∨ c ∈ m := by
  unfold Memory.cons at h
  split at h
  · exact .inr h
  · rcases List.mem_cons.mp h with rfl | h
    · exact .inl rfl
    · exact .inr h

theorem mem_write {m : Memory} {a : Nat} {b : Byte} {c : Host.Cell} (h : c ∈ m.write a b) :
    c.1 = a ∨ c ∈ m := by
  induction m with
  | nil => exact mem_cons h
  | cons d m ih =>
    obtain ⟨k, e⟩ := d
    simp only [write] at h
    split at h
    · exact mem_cons h
    · split at h
      · rcases mem_cons h with h | h
        · exact .inl h
        · exact .inr (List.mem_cons_of_mem _ h)
      · rcases List.mem_cons.mp h with rfl | h
        · exact .inr (by simp)
        · rcases ih h with h | h
          · exact .inl h
          · exact .inr (List.mem_cons_of_mem _ h)

theorem wf_write {m : Memory} (h : wf m) (a : Nat) (b : Byte) : wf (m.write a b) := by
  induction m with
  | nil => exact wf_cons wf_nil (by simp)
  | cons d m ih =>
    obtain ⟨k, e⟩ := d
    simp only [write]
    split
    · rename_i hlt
      refine wf_cons h fun c hc => ?_
      rcases List.mem_cons.mp hc with rfl | hc
      · exact hlt
      · exact hlt.trans (lt_of_wf h hc)
    · split
      · subst_vars
        exact wf_cons (wf_tail h) fun c hc => lt_of_wf h hc
      · have hw := ih (wf_tail h)
        refine ⟨List.pairwise_cons.mpr ⟨fun c hc => ?_, hw.1⟩, fun c hc => ?_⟩
        · rcases mem_write hc with hc | hc
          · simp only [hc]
            omega
          · exact lt_of_wf h hc
        · rcases List.mem_cons.mp hc with rfl | hc
          · exact h.2 _ (by simp)
          · exact hw.2 c hc

/-- Read after write, at the written address and elsewhere. -/
theorem read_write {m : Memory} (h : wf m) (a : Nat) (b : Byte) (x : Nat) :
    (m.write a b).read x = if x = a then b else m.read x := by
  induction m with
  | nil => exact read_cons (by simp) x
  | cons d m ih =>
    obtain ⟨k, e⟩ := d
    simp only [write]
    split
    · rename_i hlt
      refine read_cons (fun c hc => ?_) x
      rcases List.mem_cons.mp hc with rfl | hc
      · exact hlt
      · exact hlt.trans (lt_of_wf h hc)
    · split
      · subst_vars
        rw [read_cons (fun c hc => lt_of_wf h hc)]
        simp only [read]
        by_cases hx : x = k
        · simp [hx]
        · simp [hx, Ne.symm hx]
      · rename_i h1 h2
        simp only [read, ih (wf_tail h)]
        by_cases hk : k = x
        · have : x ≠ a := by omega
          simp [hk, this]
        · simp [hk]

theorem wf_writeBytes {m : Memory} (h : wf m) (a : Nat) (bs : List Byte) : wf (m.writeBytes a bs) := by
  induction bs generalizing m a with
  | nil => exact h
  | cons b bs ih => exact ih (wf_write h a b) (a + 1)

theorem mem_writeBytes {m : Memory} {a : Nat} {bs : List Byte} {c : Host.Cell}
    (h : c ∈ m.writeBytes a bs) : (a ≤ c.1 ∧ c.1 < a + bs.length) ∨ c ∈ m := by
  induction bs generalizing m a with
  | nil => exact .inr h
  | cons b bs ih =>
    simp only [List.length_cons]
    rcases ih h with h | h
    · exact .inl (by omega)
    · rcases mem_write h with h | h
      · exact .inl (by omega)
      · exact .inr h

/-- The bytes written are read back in their order. -/
theorem read_writeBytes_inside {m : Memory} (h : wf m) (a : Nat) (bs : List Byte) (j : Nat)
    (hj : j < bs.length) : (m.writeBytes a bs).read (a + j) = bs[j] := by
  induction bs generalizing m a j with
  | nil => simp at hj
  | cons b bs ih =>
    cases j with
    | zero =>
      have outside : ∀ (m : Memory) (_ : wf m) (k : Nat), a < k →
          (m.writeBytes k bs).read a = m.read a := by
        clear ih
        intro m hm k hk
        induction bs generalizing m k with
        | nil => rfl
        | cons c cs ihc =>
          simp only [writeBytes]
          rw [ihc (by simp) _ (wf_write hm k c) (k + 1) (by omega), read_write hm]
          have : a ≠ k := by omega
          simp [this]
      simp only [writeBytes, Nat.add_zero]
      rw [outside _ (wf_write h a b) (a + 1) (by omega), read_write h]
      simp
    | succ j =>
      have := ih (wf_write h a b) (a + 1) j (by simpa using hj)
      rw [show a + (j + 1) = a + 1 + j by omega]
      simpa [writeBytes] using this

/-- Every byte outside the bytes written reads as before. -/
theorem read_writeBytes_outside {m : Memory} (h : wf m) (a : Nat) (bs : List Byte) (x : Nat)
    (hx : x < a ∨ a + bs.length ≤ x) : (m.writeBytes a bs).read x = m.read x := by
  induction bs generalizing m a with
  | nil => rfl
  | cons b bs ih =>
    simp only [List.length_cons] at hx
    simp only [writeBytes]
    rw [ih (wf_write h a b) (a + 1) (by omega), read_write h]
    have : x ≠ a := by omega
    simp [this]

/-- Two canonical memories that read the same everywhere are the same list. -/
theorem ext_of_read {m n : Memory} (hm : wf m) (hn : wf n) (h : ∀ a, m.read a = n.read a) : m = n := by
  induction m generalizing n with
  | nil =>
    cases n with
    | nil => rfl
    | cons d n =>
      have := h d.1
      simp only [read, if_true] at this
      exact absurd this.symm (hn.2 d (by simp))
  | cons c m ih =>
    cases n with
    | nil =>
      have := h c.1
      simp only [read, if_true] at this
      exact absurd this (hm.2 c (by simp))
    | cons d n =>
      have hlow : ∀ (c d : Host.Cell) (m n : Memory), wf (c :: m) → wf (d :: n) →
          (∀ a, read (c :: m) a = read (d :: n) a) → ¬ c.1 < d.1 := by
        intro c d m n hm hn h hlt
        have h1 := h c.1
        rw [read_below (d :: n) c.1 (fun e he => by
          rcases List.mem_cons.mp he with rfl | he
          · exact hlt
          · exact hlt.trans (lt_of_wf hn he))] at h1
        simp only [read, if_true] at h1
        exact hm.2 c (by simp) h1
      have hkey : c.1 = d.1 := by
        have h1 := hlow c d m n hm hn h
        have h2 := hlow d c n m hn hm fun a => (h a).symm
        omega
      have hval : c.2 = d.2 := by
        have := h c.1
        simpa [read, hkey] using this
      have hcd : c = d := Prod.ext hkey hval
      subst hcd
      congr 1
      refine ih (wf_tail hm) (wf_tail hn) fun a => ?_
      have := h a
      simp only [read] at this
      by_cases hc : c.1 = a
      · subst hc
        rw [read_below m _ fun e he => lt_of_wf hm he, read_below n _ fun e he => lt_of_wf hn he]
      · simpa [hc] using this

end Sys2Proof.Machine.Memory

namespace Sys2Proof.Machine

@[simp] theorem quadBytes_length (v : Word) : (quadBytes v).length = 8 := by simp [quadBytes]

theorem quadBytes_getElem (v : Word) (j : Nat) (hj : j < 8) :
    (quadBytes v)[j]'(by simpa using hj) = v.extractLsb' (8 * j) 8 := by
  simp [quadBytes]

/-- The memory of the reset state is canonical. -/
theorem reset_mem_wf : Memory.wf State.reset.mem := Memory.wf_nil

/-- A quad write keeps the canonical form (a failed one gives no state). -/
theorem memWrite_wf {s t : State} {a v : Word} (h : Memory.wf s.mem) (hw : s.memWrite a v = some t) :
    Memory.wf t.mem := by
  unfold State.memWrite at hw
  split at hw
  · cases hw
    exact Memory.wf_writeBytes h _ _
  · cases hw

/-- A quad stored is the quad read back (20_memory.md R47, R48). -/
theorem readQuad_writeBytes {m : Memory} (h : m.wf) (a : Nat) (v : Word) :
    (m.writeBytes a (quadBytes v)).readQuad a = v := by
  have hb : ∀ j (hj : j < 8),
      (m.writeBytes a (quadBytes v)).read (a + j) = v.extractLsb' (8 * j) 8 := by
    intro j hj
    rw [Memory.read_writeBytes_inside h a _ j (by simpa using hj), quadBytes_getElem v j hj]
  have h0 := hb 0 (by omega)
  rw [Nat.add_zero] at h0
  simp only [Memory.readQuad, hb 1 (by omega), hb 2 (by omega), hb 3 (by omega), hb 4 (by omega),
    hb 5 (by omega), hb 6 (by omega), hb 7 (by omega), h0]
  apply BitVec.eq_of_getLsbD_eq
  intro i hi
  simp only [BitVec.getLsbD_append, BitVec.getLsbD_extractLsb']
  have : i < 64 := by simpa using hi
  repeat' split
  all_goals
    rw [decide_eq_true (by omega), Bool.true_and]
    congr 1
    omega

end Sys2Proof.Machine
end

