-- ==== Sys2Proof/Laws/State.lean ====
section
/-! SUPPORT. One lemma per field per update, so that no later proof unfolds a record update. -/

namespace Sys2Proof.Machine

variable (s : State)

/-! ### setReg -/

@[simp] theorem setReg_x (i : Fin 16) (v : Word) : (s.setReg i v).x = s.x.set i v := rfl
@[simp] theorem setReg_pc (i : Fin 16) (v : Word) : (s.setReg i v).pc = s.pc := rfl
@[simp] theorem setReg_Z (i : Fin 16) (v : Word) : (s.setReg i v).Z = s.Z := rfl
@[simp] theorem setReg_S (i : Fin 16) (v : Word) : (s.setReg i v).S = s.S := rfl
@[simp] theorem setReg_O (i : Fin 16) (v : Word) : (s.setReg i v).O = s.O := rfl
@[simp] theorem setReg_H (i : Fin 16) (v : Word) : (s.setReg i v).H = s.H := rfl
@[simp] theorem setReg_startAddr (i : Fin 16) (v : Word) : (s.setReg i v).startAddr = s.startAddr := rfl
@[simp] theorem setReg_validMem (i : Fin 16) (v : Word) : (s.setReg i v).validMem = s.validMem := rfl
@[simp] theorem setReg_memCapacity (i : Fin 16) (v : Word) : (s.setReg i v).memCapacity = s.memCapacity := rfl
@[simp] theorem setReg_mem (i : Fin 16) (v : Word) : (s.setReg i v).mem = s.mem := rfl
@[simp] theorem setReg_haltPcPolicy (i : Fin 16) (v : Word) : (s.setReg i v).haltPcPolicy = s.haltPcPolicy := rfl
@[simp] theorem setReg_modqBothZeroFlags (i : Fin 16) (v : Word) : (s.setReg i v).modqBothZeroFlags = s.modqBothZeroFlags := rfl
@[simp] theorem setReg_req (i : Fin 16) (v : Word) : (s.setReg i v).req = s.req := rfl
@[simp] theorem setReg_rsp (i : Fin 16) (v : Word) : (s.setReg i v).rsp = s.rsp := rfl

/-! ### advance -/

@[simp] theorem advance_x (n : Nat) : (s.advance n).x = s.x := rfl
@[simp] theorem advance_pc (n : Nat) : (s.advance n).pc = if s.H then s.pc else to64 (u64 s.pc + n) := rfl
@[simp] theorem advance_Z (n : Nat) : (s.advance n).Z = s.Z := rfl
@[simp] theorem advance_S (n : Nat) : (s.advance n).S = s.S := rfl
@[simp] theorem advance_O (n : Nat) : (s.advance n).O = s.O := rfl
@[simp] theorem advance_H (n : Nat) : (s.advance n).H = s.H := rfl
@[simp] theorem advance_startAddr (n : Nat) : (s.advance n).startAddr = s.startAddr := rfl
@[simp] theorem advance_validMem (n : Nat) : (s.advance n).validMem = s.validMem := rfl
@[simp] theorem advance_memCapacity (n : Nat) : (s.advance n).memCapacity = s.memCapacity := rfl
@[simp] theorem advance_mem (n : Nat) : (s.advance n).mem = s.mem := rfl
@[simp] theorem advance_haltPcPolicy (n : Nat) : (s.advance n).haltPcPolicy = s.haltPcPolicy := rfl
@[simp] theorem advance_modqBothZeroFlags (n : Nat) : (s.advance n).modqBothZeroFlags = s.modqBothZeroFlags := rfl
@[simp] theorem advance_req (n : Nat) : (s.advance n).req = s.req := rfl
@[simp] theorem advance_rsp (n : Nat) : (s.advance n).rsp = s.rsp := rfl
@[simp] theorem advance_reg (n : Nat) (k : Fin 16) : (s.advance n).reg k = s.reg k := rfl

/-! ### transfer -/

@[simp] theorem transfer_x (t : Word) : (s.transfer t).x = s.x := rfl
@[simp] theorem transfer_pc (t : Word) : (s.transfer t).pc = if s.H = true ∧ s.haltPcPolicy = .freezeAll then s.pc else t := rfl
@[simp] theorem transfer_Z (t : Word) : (s.transfer t).Z = s.Z := rfl
@[simp] theorem transfer_S (t : Word) : (s.transfer t).S = s.S := rfl
@[simp] theorem transfer_O (t : Word) : (s.transfer t).O = s.O := rfl
@[simp] theorem transfer_H (t : Word) : (s.transfer t).H = s.H := rfl
@[simp] theorem transfer_startAddr (t : Word) : (s.transfer t).startAddr = s.startAddr := rfl
@[simp] theorem transfer_validMem (t : Word) : (s.transfer t).validMem = s.validMem := rfl
@[simp] theorem transfer_memCapacity (t : Word) : (s.transfer t).memCapacity = s.memCapacity := rfl
@[simp] theorem transfer_mem (t : Word) : (s.transfer t).mem = s.mem := rfl
@[simp] theorem transfer_haltPcPolicy (t : Word) : (s.transfer t).haltPcPolicy = s.haltPcPolicy := rfl
@[simp] theorem transfer_modqBothZeroFlags (t : Word) : (s.transfer t).modqBothZeroFlags = s.modqBothZeroFlags := rfl
@[simp] theorem transfer_req (t : Word) : (s.transfer t).req = s.req := rfl
@[simp] theorem transfer_rsp (t : Word) : (s.transfer t).rsp = s.rsp := rfl
@[simp] theorem transfer_reg (t : Word) (k : Fin 16) : (s.transfer t).reg k = s.reg k := rfl

/-! ### setFlags -/

@[simp] theorem setFlags_x (r : Word) : (s.setFlags r).x = s.x := rfl
@[simp] theorem setFlags_pc (r : Word) : (s.setFlags r).pc = s.pc := rfl
@[simp] theorem setFlags_Z (r : Word) : (s.setFlags r).Z = decide (r = 0) := rfl
@[simp] theorem setFlags_S (r : Word) : (s.setFlags r).S = r.msb := rfl
@[simp] theorem setFlags_O (r : Word) : (s.setFlags r).O = false := rfl
@[simp] theorem setFlags_H (r : Word) : (s.setFlags r).H = s.H := rfl
@[simp] theorem setFlags_startAddr (r : Word) : (s.setFlags r).startAddr = s.startAddr := rfl
@[simp] theorem setFlags_validMem (r : Word) : (s.setFlags r).validMem = s.validMem := rfl
@[simp] theorem setFlags_memCapacity (r : Word) : (s.setFlags r).memCapacity = s.memCapacity := rfl
@[simp] theorem setFlags_mem (r : Word) : (s.setFlags r).mem = s.mem := rfl
@[simp] theorem setFlags_haltPcPolicy (r : Word) : (s.setFlags r).haltPcPolicy = s.haltPcPolicy := rfl
@[simp] theorem setFlags_modqBothZeroFlags (r : Word) : (s.setFlags r).modqBothZeroFlags = s.modqBothZeroFlags := rfl
@[simp] theorem setFlags_req (r : Word) : (s.setFlags r).req = s.req := rfl
@[simp] theorem setFlags_rsp (r : Word) : (s.setFlags r).rsp = s.rsp := rfl
@[simp] theorem setFlags_reg (r : Word) (k : Fin 16) : (s.setFlags r).reg k = s.reg k := rfl

/-! ### respond -/

@[simp] theorem respond_x (st : Status) : (s.respond st).x = s.x := rfl
@[simp] theorem respond_pc (st : Status) : (s.respond st).pc = s.pc := rfl
@[simp] theorem respond_Z (st : Status) : (s.respond st).Z = s.Z := rfl
@[simp] theorem respond_S (st : Status) : (s.respond st).S = s.S := rfl
@[simp] theorem respond_O (st : Status) : (s.respond st).O = s.O := rfl
@[simp] theorem respond_H (st : Status) : (s.respond st).H = s.H := rfl
@[simp] theorem respond_startAddr (st : Status) : (s.respond st).startAddr = s.startAddr := rfl
@[simp] theorem respond_validMem (st : Status) : (s.respond st).validMem = s.validMem := rfl
@[simp] theorem respond_memCapacity (st : Status) : (s.respond st).memCapacity = s.memCapacity := rfl
@[simp] theorem respond_mem (st : Status) : (s.respond st).mem = s.mem := rfl
@[simp] theorem respond_haltPcPolicy (st : Status) : (s.respond st).haltPcPolicy = s.haltPcPolicy := rfl
@[simp] theorem respond_modqBothZeroFlags (st : Status) : (s.respond st).modqBothZeroFlags = s.modqBothZeroFlags := rfl
@[simp] theorem respond_req (st : Status) : (s.respond st).req = s.req := rfl
@[simp] theorem respond_rsp (st : Status) : (s.respond st).rsp = s.rsp ++ [⟨st, none⟩] := rfl
@[simp] theorem respond_reg (st : Status) (k : Fin 16) : (s.respond st).reg k = s.reg k := rfl

/-! ### respondDump -/

@[simp] theorem respondDump_x : (s.respondDump).x = s.x := rfl
@[simp] theorem respondDump_pc : (s.respondDump).pc = s.pc := rfl
@[simp] theorem respondDump_Z : (s.respondDump).Z = s.Z := rfl
@[simp] theorem respondDump_S : (s.respondDump).S = s.S := rfl
@[simp] theorem respondDump_O : (s.respondDump).O = s.O := rfl
@[simp] theorem respondDump_H : (s.respondDump).H = s.H := rfl
@[simp] theorem respondDump_startAddr : (s.respondDump).startAddr = s.startAddr := rfl
@[simp] theorem respondDump_validMem : (s.respondDump).validMem = s.validMem := rfl
@[simp] theorem respondDump_memCapacity : (s.respondDump).memCapacity = s.memCapacity := rfl
@[simp] theorem respondDump_mem : (s.respondDump).mem = s.mem := rfl
@[simp] theorem respondDump_haltPcPolicy : (s.respondDump).haltPcPolicy = s.haltPcPolicy := rfl
@[simp] theorem respondDump_modqBothZeroFlags : (s.respondDump).modqBothZeroFlags = s.modqBothZeroFlags := rfl
@[simp] theorem respondDump_req : (s.respondDump).req = s.req := rfl
@[simp] theorem respondDump_rsp : (s.respondDump).rsp = s.rsp ++ [⟨.dump, some s.snapshot⟩] := rfl
@[simp] theorem respondDump_reg (k : Fin 16) : (s.respondDump).reg k = s.reg k := rfl

/-! ### send -/

@[simp] theorem send_x (line : Line) : (s.send line).x = s.x := rfl
@[simp] theorem send_pc (line : Line) : (s.send line).pc = s.pc := rfl
@[simp] theorem send_Z (line : Line) : (s.send line).Z = s.Z := rfl
@[simp] theorem send_S (line : Line) : (s.send line).S = s.S := rfl
@[simp] theorem send_O (line : Line) : (s.send line).O = s.O := rfl
@[simp] theorem send_H (line : Line) : (s.send line).H = s.H := rfl
@[simp] theorem send_startAddr (line : Line) : (s.send line).startAddr = s.startAddr := rfl
@[simp] theorem send_validMem (line : Line) : (s.send line).validMem = s.validMem := rfl
@[simp] theorem send_memCapacity (line : Line) : (s.send line).memCapacity = s.memCapacity := rfl
@[simp] theorem send_mem (line : Line) : (s.send line).mem = s.mem := rfl
@[simp] theorem send_haltPcPolicy (line : Line) : (s.send line).haltPcPolicy = s.haltPcPolicy := rfl
@[simp] theorem send_modqBothZeroFlags (line : Line) : (s.send line).modqBothZeroFlags = s.modqBothZeroFlags := rfl
@[simp] theorem send_req (line : Line) : (s.send line).req = s.req ++ [line] := rfl
@[simp] theorem send_rsp (line : Line) : (s.send line).rsp = s.rsp := rfl
@[simp] theorem send_reg (line : Line) (k : Fin 16) : (s.send line).reg k = s.reg k := rfl

/-! ### setBothZeroFlags -/

@[simp] theorem setBothZeroFlags_x : s.setBothZeroFlags.x = s.x := by
  unfold State.setBothZeroFlags
  split <;> rfl

@[simp] theorem setBothZeroFlags_pc : s.setBothZeroFlags.pc = s.pc := by
  unfold State.setBothZeroFlags
  split <;> rfl

@[simp] theorem setBothZeroFlags_H : s.setBothZeroFlags.H = s.H := by
  unfold State.setBothZeroFlags
  split <;> rfl

@[simp] theorem setBothZeroFlags_startAddr : s.setBothZeroFlags.startAddr = s.startAddr := by
  unfold State.setBothZeroFlags
  split <;> rfl

@[simp] theorem setBothZeroFlags_validMem : s.setBothZeroFlags.validMem = s.validMem := by
  unfold State.setBothZeroFlags
  split <;> rfl

@[simp] theorem setBothZeroFlags_memCapacity : s.setBothZeroFlags.memCapacity = s.memCapacity := by
  unfold State.setBothZeroFlags
  split <;> rfl

@[simp] theorem setBothZeroFlags_mem : s.setBothZeroFlags.mem = s.mem := by
  unfold State.setBothZeroFlags
  split <;> rfl

@[simp] theorem setBothZeroFlags_haltPcPolicy : s.setBothZeroFlags.haltPcPolicy = s.haltPcPolicy := by
  unfold State.setBothZeroFlags
  split <;> rfl

@[simp] theorem setBothZeroFlags_modqBothZeroFlags : s.setBothZeroFlags.modqBothZeroFlags = s.modqBothZeroFlags := by
  unfold State.setBothZeroFlags
  split <;> rfl

@[simp] theorem setBothZeroFlags_req : s.setBothZeroFlags.req = s.req := by
  unfold State.setBothZeroFlags
  split <;> rfl

@[simp] theorem setBothZeroFlags_rsp : s.setBothZeroFlags.rsp = s.rsp := by
  unfold State.setBothZeroFlags
  split <;> rfl

@[simp] theorem setBothZeroFlags_reg (r : Fin 16) : s.setBothZeroFlags.reg r = s.reg r := by
  simp [State.reg]

@[simp] theorem setBothZeroFlags_Z : s.setBothZeroFlags.Z = true := by
  unfold State.setBothZeroFlags
  split <;> rfl

theorem setBothZeroFlags_keep {s : State} (h : s.modqBothZeroFlags = .setZKeepOthers) :
    s.setBothZeroFlags = { s with Z := true } := by
  simp [State.setBothZeroFlags, h]

theorem setBothZeroFlags_only {s : State} (h : s.modqBothZeroFlags = .zOnly) :
    s.setBothZeroFlags = { s with Z := true, S := false, O := false } := by
  simp [State.setBothZeroFlags, h]

/-! ### Registers -/

/-- The one law of register writes: no register is hard-wired (10_state.md R23). -/
@[simp] theorem setReg_reg (i : Fin 16) (v : Word) (r : Fin 16) :
    (s.setReg i v).reg r = if r = i then v else s.reg r := by
  simp only [State.reg, State.setReg, Fin.getElem_fin, Vector.getElem_set, Fin.ext_iff]
  by_cases h : i.val = r.val
  · simp [h]
  · simp [h, Ne.symm h]

end Sys2Proof.Machine
end

