-- ==== Sys2Proof/Laws/Word.lean ====
section
/-! SUPPORT. The readings of a word and `to64` (00_scope.md R19). -/

namespace Sys2Proof

theorem u64_lt (v : Word) : u64 v < 2 ^ 64 := v.isLt

theorem u64_to64_nat (n : Nat) : u64 (to64 (n : Int)) = n % 2 ^ 64 := by
  simp [u64, to64]

theorem to64_nat (n : Nat) : to64 (n : Int) = BitVec.ofNat 64 n := by
  apply BitVec.eq_of_toNat_eq
  simp [to64]

theorem u64_to64_add (a b : Nat) : u64 (to64 ((a : Int) + (b : Int))) = (a + b) % 2 ^ 64 := by
  rw [← Int.natCast_add]
  exact u64_to64_nat _

theorem u64_to64_sub (a b : Nat) (hb : b ≤ 2 ^ 64) :
    u64 (to64 ((a : Int) - (b : Int))) = (a + (2 ^ 64 - b)) % 2 ^ 64 := by
  simp only [u64, to64, BitVec.toNat_ofInt]
  omega

theorem s64_range (v : Word) : -2 ^ 63 ≤ s64 v ∧ s64 v < 2 ^ 63 := by
  constructor
  · exact BitVec.le_toInt v
  · exact BitVec.toInt_lt

theorem s64_to64 (n : Int) (h1 : -2 ^ 63 ≤ n) (h2 : n < 2 ^ 63) : s64 (to64 n) = n := by
  simp only [s64, to64, BitVec.toInt_ofInt]
  exact Int.bmod_eq_of_le (by omega) (by omega)

theorem s64_eq_zero_iff (v : Word) : s64 v = 0 ↔ v = 0 := by
  constructor
  · intro h
    exact BitVec.eq_of_toInt_eq (by simpa using h)
  · rintro rfl
    rfl

theorem u64_eq_zero_iff (v : Word) : u64 v = 0 ↔ v = 0 := by
  constructor
  · intro h
    exact BitVec.eq_of_toNat_eq (by simpa using h)
  · rintro rfl
    rfl

theorem msb_iff_s64_neg (v : Word) : v.msb = true ↔ s64 v < 0 := by
  simp [s64, BitVec.msb_eq_toInt]

/-- The truncated quotient of two words fits a word, but for -2^63 / -1 (43_alu.md R92). -/
theorem tdiv_range (a b : Word) (h0 : s64 b ≠ 0) (h : ¬ (s64 a = -2 ^ 63 ∧ s64 b = -1)) :
    -2 ^ 63 ≤ (s64 a).tdiv (s64 b) ∧ (s64 a).tdiv (s64 b) < 2 ^ 63 := by
  obtain ⟨ha1, ha2⟩ := s64_range a
  generalize s64 a = x at *
  generalize s64 b = y at *
  have hn : ((x.tdiv y).natAbs : Int) ≤ x.natAbs := by
    rw [Int.natAbs_tdiv]
    exact_mod_cast Nat.div_le_self _ _
  by_cases hy : x = -2 ^ 63
  · have hy1 : y ≠ -1 := fun e => h ⟨hy, e⟩
    subst hy
    refine ⟨by omega, ?_⟩
    by_cases hpos : 0 < y
    · have : 0 ≤ (2 ^ 63 : Int).tdiv y := Int.tdiv_nonneg (by norm_num) hpos.le
      rw [Int.neg_tdiv]
      omega
    · have h2 : 2 ≤ y.natAbs := by omega
      have : ((-2 ^ 63 : Int).tdiv y).natAbs ≤ 2 ^ 63 / 2 := by
        rw [Int.natAbs_tdiv]
        exact Nat.div_le_div_left h2 (by norm_num)
      omega
  · omega

end Sys2Proof
end

