-- ==== Sys2Proof/Laws/Ops.lean ====
section
/-! SUPPORT. One spec lemma per shared operation: what it answers, and everything it can do. -/

namespace Sys2Proof.Machine

variable {s t : State}

/-! ### Register operands (40_execute_common.md R80) -/

theorem regOf_of_eq {r : RegIdx} {i : Fin 16} (h : r.toNat = i.val) : regOf r = some i := by
  simp [regOf, h]

theorem regOf_of_gt {r : RegIdx} (h : 15 < r.toNat) : regOf r = none := by
  rw [regOf, dif_neg (by omega)]

/-- A register field names a register, or it is out of range. -/
theorem regOf_cases (r : RegIdx) :
    (∃ i : Fin 16, r.toNat = i.val ∧ regOf r = some i) ∨ (15 < r.toNat ∧ regOf r = none) := by
  by_cases h : r.toNat < 16
  · exact .inl ⟨⟨r.toNat, h⟩, rfl, regOf_of_eq rfl⟩
  · exact .inr ⟨by omega, regOf_of_gt (by omega)⟩

theorem withReg_of_eq {r : RegIdx} {i : Fin 16} (h : r.toNat = i.val) (k : Fin 16 → Result) :
    withReg r s k = k i := by
  simp only [withReg, regOf_of_eq h]

theorem withReg_of_gt {r : RegIdx} (h : 15 < r.toNat) (k : Fin 16 → Result) :
    withReg r s k = raise .regRange s := by
  simp only [withReg, regOf_of_gt h]

theorem withRegs_of_eq {ra rb : RegIdx} {a b : Fin 16} (ha : ra.toNat = a.val) (hb : rb.toNat = b.val)
    (k : Fin 16 → Fin 16 → Result) : withRegs ra rb s k = k a b := by
  simp only [withRegs, withReg_of_eq ha, withReg_of_eq hb]

theorem withRegs_of_gt {ra rb : RegIdx} (h : 15 < ra.toNat ∨ 15 < rb.toNat)
    (k : Fin 16 → Fin 16 → Result) : withRegs ra rb s k = raise .regRange s := by
  rcases regOf_cases ra with ⟨a, ha, -⟩ | ⟨ha, -⟩
  · have hb : 15 < rb.toNat := by omega
    simp only [withRegs, withReg_of_eq ha, withReg_of_gt hb]
  · simp only [withRegs, withReg_of_gt ha]

/-! ### How a request ends -/

theorem raise_eq (k : ExecFault) : raise k s = .next (s.respond (.execFault k)) := rfl

theorem succeed_eq : succeed s = .next (s.respond .ok) := rfl

theorem next_inj {a b : State} : (Host.Outcome.next a : Result) = .next b ↔ a = b := by
  constructor
  · intro h
    cases h
    rfl
  · rintro rfl
    rfl

/-- Everything that an instruction with one register field can do. -/
theorem withReg_next {r : RegIdx} {k : Fin 16 → Result} (h : withReg r s k = .next t) :
    (∃ i : Fin 16, r.toNat = i.val ∧ k i = .next t) ∨
      (15 < r.toNat ∧ t = s.respond (.execFault .regRange)) := by
  rcases regOf_cases r with ⟨i, hi, -⟩ | ⟨hr, -⟩
  · rw [withReg_of_eq hi] at h
    exact .inl ⟨i, hi, h⟩
  · rw [withReg_of_gt hr, raise_eq, next_inj] at h
    exact .inr ⟨hr, h.symm⟩

/-- Everything that an instruction with two register fields can do. -/
theorem withRegs_next {ra rb : RegIdx} {k : Fin 16 → Fin 16 → Result}
    (h : withRegs ra rb s k = .next t) :
    (∃ a b : Fin 16, ra.toNat = a.val ∧ rb.toNat = b.val ∧ k a b = .next t) ∨
      ((15 < ra.toNat ∨ 15 < rb.toNat) ∧ t = s.respond (.execFault .regRange)) := by
  rcases withReg_next h with ⟨a, ha, h⟩ | ⟨ha, h⟩
  · rcases withReg_next h with ⟨b, hb, h⟩ | ⟨hb, h⟩
    · exact .inl ⟨a, b, ha, hb, h⟩
    · exact .inr ⟨.inr hb, h⟩
  · exact .inr ⟨.inl ha, h⟩

/-! ### Memory accesses (20_memory.md R46 to R49) -/

theorem memRead_of_inBounds {a : Word} (h : s.inBounds a) :
    s.memRead a = some (s.mem.readQuad (u64 a)) := by
  rw [State.memRead, if_pos h]

theorem memRead_of_not {a : Word} (h : ¬ s.inBounds a) : s.memRead a = none := by
  rw [State.memRead, if_neg h]

theorem memWrite_of_inBounds {a v : Word} (h : s.inBounds a) :
    s.memWrite a v = some { s with mem := s.mem.writeBytes (u64 a) (quadBytes v) } := by
  rw [State.memWrite, if_pos h]

theorem memWrite_of_not {a v : Word} (h : ¬ s.inBounds a) : s.memWrite a v = none := by
  rw [State.memWrite, if_neg h]

/-- Everything that a store can do. -/
theorem storeThen_next {addr v : Word} {k : State → Result} (h : storeThen s addr v k = .next t) :
    (s.inBounds addr ∧ k { s with mem := s.mem.writeBytes (u64 addr) (quadBytes v) } = .next t) ∨
      (¬ s.inBounds addr ∧ t = s.respond (.execFault .memBounds)) := by
  by_cases hb : s.inBounds addr
  · rw [storeThen, memWrite_of_inBounds hb] at h
    exact .inl ⟨hb, h⟩
  · rw [storeThen, memWrite_of_not hb] at h
    exact .inr ⟨hb, (next_inj.mp h).symm⟩

/-- Everything that a load can do. -/
theorem loadThen_next {addr : Word} {k : Word → Result} (h : loadThen s addr k = .next t) :
    (s.inBounds addr ∧ k (s.mem.readQuad (u64 addr)) = .next t) ∨
      (¬ s.inBounds addr ∧ t = s.respond (.execFault .memBounds)) := by
  by_cases hb : s.inBounds addr
  · rw [loadThen, memRead_of_inBounds hb] at h
    exact .inl ⟨hb, h⟩
  · rw [loadThen, memRead_of_not hb] at h
    exact .inr ⟨hb, (next_inj.mp h).symm⟩

/-! ### Shapes of instructions -/

/-- Everything that an ALU operation without a fault of its own can do. -/
theorem aluOp_next {f : Word → Word → Word} {ra rb : RegIdx} (h : aluOp f ra rb s = .next t) :
    (∃ a b : Fin 16, ra.toNat = a.val ∧ rb.toNat = b.val ∧
      aluResult b (f (s.reg b) (s.reg a)) s = .next t) ∨
      ((15 < ra.toNat ∨ 15 < rb.toNat) ∧ t = s.respond (.execFault .regRange)) := withRegs_next h

theorem aluResult_next {b : Fin 16} {r : Word} (h : aluResult b r s = .next t) :
    t = (((s.setReg b r).setFlags r).advance 2).respond .ok := (next_inj.mp h).symm

/-- Everything that a conditional move can do. -/
theorem cmov_next {cc : Bool} {ra rb : RegIdx} (h : cmov cc ra rb s = .next t) :
    (∃ a b : Fin 16, ra.toNat = a.val ∧ rb.toNat = b.val ∧
      t = ((if cc then s.setReg b (s.reg a) else s).advance 2).respond .ok) ∨
      ((15 < ra.toNat ∨ 15 < rb.toNat) ∧ t = s.respond (.execFault .regRange)) := by
  rcases withRegs_next h with ⟨a, b, ha, hb, h⟩ | h
  · exact .inl ⟨a, b, ha, hb, (next_inj.mp h).symm⟩
  · exact .inr h

theorem jump_eq (cc : Bool) (target : Word) :
    jump cc target s = .next ((if cc then s.transfer target else s.advance 9).respond .ok) := rfl

/-- Everything that divq can do (43_alu.md R98). -/
theorem execDivq_next {ra rb : RegIdx} (h : execDivq ra rb s = .next t) :
    (∃ a b : Fin 16, ra.toNat = a.val ∧ rb.toNat = b.val ∧
      ((s64 (s.reg a) = 0 ∧ t = s.respond (.execFault .divZero)) ∨
       (s64 (s.reg a) ≠ 0 ∧ quotientOverflows (s.reg b) (s.reg a) ∧
        t = s.respond (.execFault .divOverflow)) ∨
       (s64 (s.reg a) ≠ 0 ∧ ¬ quotientOverflows (s.reg b) (s.reg a) ∧
        aluResult b (quotient (s.reg b) (s.reg a)) s = .next t))) ∨
      ((15 < ra.toNat ∨ 15 < rb.toNat) ∧ t = s.respond (.execFault .regRange)) := by
  rcases withRegs_next h with ⟨a, b, ha, hb, h⟩ | h
  · refine .inl ⟨a, b, ha, hb, ?_⟩
    split at h
    · exact .inl ⟨‹_›, (next_inj.mp h).symm⟩
    · split at h
      · exact .inr (.inl ⟨‹_›, ‹_›, (next_inj.mp h).symm⟩)
      · exact .inr (.inr ⟨‹_›, ‹_›, h⟩)
  · exact .inr h

/-- Everything that modq can do (43_alu.md R99). -/
theorem execModq_next {ra rb : RegIdx} (h : execModq ra rb s = .next t) :
    (∃ a b : Fin 16, ra.toNat = a.val ∧ rb.toNat = b.val ∧
      ((s64 (s.reg a) = 0 ∧ s64 (s.reg b) = 0 ∧
        t = s.setBothZeroFlags.respond (.execFault .modBothZero)) ∨
       (s64 (s.reg a) = 0 ∧ s64 (s.reg b) ≠ 0 ∧ t = (s.advance 2).respond .ok) ∨
       (s64 (s.reg a) ≠ 0 ∧ quotientOverflows (s.reg b) (s.reg a) ∧
        t = s.respond (.execFault .divOverflow)) ∨
       (s64 (s.reg a) ≠ 0 ∧ ¬ quotientOverflows (s.reg b) (s.reg a) ∧
        aluResult b (remainder (s.reg b) (s.reg a)) s = .next t))) ∨
      ((15 < ra.toNat ∨ 15 < rb.toNat) ∧ t = s.respond (.execFault .regRange)) := by
  rcases withRegs_next h with ⟨a, b, ha, hb, h⟩ | h
  · refine .inl ⟨a, b, ha, hb, ?_⟩
    split at h
    · split at h
      · exact .inl ⟨‹_›, ‹_›, (next_inj.mp h).symm⟩
      · exact .inr (.inl ⟨‹_›, ‹_›, (next_inj.mp h).symm⟩)
    · split at h
      · exact .inr (.inr (.inl ⟨‹_›, ‹_›, (next_inj.mp h).symm⟩))
      · exact .inr (.inr (.inr ⟨‹_›, ‹_›, h⟩))
  · exact .inr h

/-! ### What shared operations compute -/

theorem u64_advance_pc (n : Nat) (h : s.H = false) : u64 (s.advance n).pc = (u64 s.pc + n) % 2 ^ 64 := by
  simp only [advance_pc, h, Bool.false_eq_true, if_false]
  exact u64_to64_add _ _

theorem u64_effectiveAddress (b : Fin 16) (d : Word) :
    u64 (effectiveAddress s b d) = (u64 (s.reg b) + u64 d) % 2 ^ 64 := u64_to64_add _ _

theorem u64_pushAddress : u64 (pushAddress s) = (u64 (s.reg 4) + (2 ^ 64 - 8)) % 2 ^ 64 :=
  u64_to64_sub _ 8 (by norm_num)

theorem u64_returnAddress : u64 (returnAddress s) = (u64 s.pc + 9) % 2 ^ 64 := u64_to64_add _ _

end Sys2Proof.Machine
end

