-- ==== Sys2Proof/Laws/Claims.lean ====
section
/-! SUPPORT. What follows for the terms of Safety.lean from the fields of the state an operation leaves. -/

namespace Sys2Proof.Machine

variable {s t : State}

/-! ### The pc (40_execute_common.md R87) -/

theorem pcAdvances_of_pc {n : Nat} (h : t.pc = (s.advance n).pc) : PcAdvances s t n :=
  ⟨fun hH => by rw [h, u64_advance_pc n hH], fun hH => by simp [h, hH]⟩

theorem pcTransfers_of_pc {target : Word} (h : t.pc = (s.transfer target).pc) :
    PcTransfers s t target := by
  constructor
  · rintro (hh | hh) <;> simp [h, hh]
  · intro hh
    simp [h, hh]

/-! ### Registers -/

theorem keepsRegs_of_set {b : Fin 16} {v : Word} (h : t.x = s.x.set b v) : KeepsRegs s t [b] := by
  intro r hr
  have : t.reg r = (s.setReg b v).reg r := by
    simp only [State.reg, h]
    rfl
  rw [this, setReg_reg]
  simpa using fun e => absurd (List.mem_singleton.mpr e) hr

/-- Writes to different registers commute. -/
theorem setReg_comm {r b : Fin 16} (h : r ≠ b) (v w : Word) :
    (s.setReg r v).setReg b w = (s.setReg b w).setReg r v := by
  simp only [State.setReg]
  congr 1
  apply Vector.ext
  intro i hi
  simp only [Vector.getElem_set]
  have := Fin.val_ne_of_ne h
  split <;> split <;> simp_all

/-! ### The ALU -/

/-- The flags after an ALU result are those of the result (40_execute_common.md R83). -/
theorem flagsFrom_aluResult (b : Fin 16) (r : Word) :
    FlagsFrom ((((s.setReg b r).setFlags r).advance 2).respond .ok) r :=
  ⟨rfl, by simp [u64_eq_zero_iff], by simp [msb_iff_s64_neg]⟩

/-- The rest of a truncated division (43_alu.md R92). -/
theorem tdiv_rest (x y : Int) (hy : y ≠ 0) :
    (x - x.tdiv y * y).natAbs < y.natAbs ∧
      (x - x.tdiv y * y ≠ 0 → (0 < x - x.tdiv y * y ↔ 0 < x)) := by
  have e : x - x.tdiv y * y = x.tmod y := by
    rw [Int.tmod_def]
    ring
  rw [e]
  constructor
  · rw [Int.natAbs_tmod]
    exact Nat.mod_lt _ (by omega)
  · intro h
    rcases lt_trichotomy 0 x with hx | hx | hx
    · have := Int.tmod_nonneg y hx.le
      omega
    · subst hx
      simp at h
    · have : 0 ≤ (-x).tmod y := Int.tmod_nonneg y (by omega)
      rw [Int.neg_tmod] at this
      omega

/-! ### Quads in memory (20_memory.md R47, R48, R50) -/

theorem toNat_byte (v : Word) (j : Nat) : (v.extractLsb' (8 * j) 8).toNat = u64 v / 256 ^ j % 256 := by
  simp only [BitVec.extractLsb'_toNat, Nat.shiftRight_eq_div_pow, u64]
  rw [pow_mul]
  norm_num

theorem holdsQuad_of_writeBytes (h : Memory.wf s.mem) {a : Nat} {v : Word}
    (ht : t.mem = s.mem.writeBytes a (quadBytes v)) : HoldsQuad t a v := by
  intro j hj
  rw [ht, Memory.read_writeBytes_inside h a _ j (by simpa using hj), quadBytes_getElem v j hj,
    toNat_byte]

theorem keepsBytes_of_writeBytes (h : Memory.wf s.mem) {a : Nat} {v : Word}
    (ht : t.mem = s.mem.writeBytes a (quadBytes v)) : KeepsBytes s t (quadAt a) := by
  intro x hx
  rw [ht]
  apply Memory.read_writeBytes_outside h
  simp only [quadAt] at hx
  rw [quadBytes_length]
  omega

theorem extract_bytes (b7 b6 b5 b4 b3 b2 b1 b0 : Byte) (j : Nat) (hj : j < 8) :
    (b7 ++ b6 ++ b5 ++ b4 ++ b3 ++ b2 ++ b1 ++ b0 : Word).extractLsb' (8 * j) 8 =
      [b0, b1, b2, b3, b4, b5, b6, b7].getD j 0 := by
  apply BitVec.eq_of_getLsbD_eq
  intro i hi
  interval_cases j <;>
    simp only [BitVec.getLsbD_append, BitVec.getLsbD_extractLsb', hi, decide_true, Bool.true_and,
      List.getD_cons_zero, List.getD_cons_succ]
  all_goals
    repeat' split
    all_goals first
      | omega
      | (congr 1; omega)

theorem holdsQuad_readQuad (a : Nat) : HoldsQuad s a (s.mem.readQuad a) := by
  intro j hj
  rw [← toNat_byte, Memory.readQuad, extract_bytes _ _ _ _ _ _ _ _ j hj]
  interval_cases j <;> rfl

/-- The eight bytes determine the quad. -/
theorem holdsQuad_unique {a : Nat} {v w : Word} (hv : HoldsQuad s a v) (hw : HoldsQuad s a w) :
    v = w := by
  apply BitVec.eq_of_toNat_eq
  have e : ∀ j < 8, u64 v / 256 ^ j % 256 = u64 w / 256 ^ j % 256 :=
    fun j hj => (hv j hj).symm.trans (hw j hj)
  have := e 0 (by omega)
  have := e 1 (by omega)
  have := e 2 (by omega)
  have := e 3 (by omega)
  have := e 4 (by omega)
  have := e 5 (by omega)
  have := e 6 (by omega)
  have := e 7 (by omega)
  have hv := u64_lt v
  have hw := u64_lt w
  clear e
  show u64 v = u64 w
  generalize u64 v = x at *
  generalize u64 w = y at *
  norm_num at *
  omega

theorem u64_pushAddress_of_le (h : 8 ≤ u64 (s.reg 4)) :
    u64 (pushAddress s) = u64 (s.reg 4) - 8 := by
  rw [u64_pushAddress]
  have := u64_lt (s.reg 4)
  omega

end Sys2Proof.Machine
end

