-- ==== Sys2Proof/Laws/Decode.lean ====
section
/-! SUPPORT. The lexer, the decimal digits and the opcode map, each said once: what later proofs about the
decoder and the encoders cite instead of unfolding them (30_encoding.md). -/

namespace Sys2Proof

/-! ### The lexer (30_encoding.md R64) -/

theorem closeToken_append (t : Token) (ts us : List Token) :
    closeToken (t, ts ++ us) = closeToken (t, ts) ++ us := by
  cases t <;> rfl

/-- The later tokens only follow the tokens of what is read before them. -/
theorem foldr_tokenStep (a : Line) (t : Token) (ts : List Token) :
    a.foldr tokenStep (t, ts) =
      ((a.foldr tokenStep (t, [])).1, (a.foldr tokenStep (t, [])).2 ++ ts) := by
  induction a with
  | nil => simp
  | cons c a ih =>
    simp only [List.foldr_cons]
    rw [ih]
    simp only [tokenStep]
    split
    · rw [closeToken_append]
    · rfl

/-- A run without separators is read as the start of one token. -/
theorem foldr_tokenStep_run {t : Token} (h : ∀ c ∈ t, isSep c = false) (u : Token)
    (ts : List Token) : t.foldr tokenStep (u, ts) = (t ++ u, ts) := by
  induction t with
  | nil => rfl
  | cons c t ih =>
    have hc := h c (by simp)
    rw [List.foldr_cons, ih fun d hd => h d (by simp [hd])]
    simp [tokenStep, hc]

/-- A separator closes the token before it. -/
theorem foldr_tokenStep_sep (a b : Line) {c : Byte} (h : isSep c = true) :
    (a ++ c :: b).foldr tokenStep ([], []) =
      ((a.foldr tokenStep ([], [])).1, (a.foldr tokenStep ([], [])).2 ++ tokens b) := by
  rw [List.foldr_append, List.foldr_cons, tokenStep, if_pos h, foldr_tokenStep]
  rfl

/-! ### Decimal digits (30_encoding.md R68) -/

theorem digitsValue_append (a b : List Byte) :
    digitsValue (a ++ b) =
      b.foldl (fun n c => 10 * n + (c.toNat - 0x30)) (digitsValue a) := by
  simp [digitsValue]

theorem digitsValue_snoc (a : List Byte) (c : Byte) :
    digitsValue (a ++ [c]) = 10 * digitsValue a + (c.toNat - 0x30) := by
  rw [digitsValue_append]
  rfl

/-- Leading zeros do not change the value. -/
theorem digitsValue_zeros (k : Nat) (ds : List Byte) :
    digitsValue (List.replicate k 0x30 ++ ds) = digitsValue ds := by
  induction k with
  | zero => rfl
  | succ k ih => simpa [List.replicate_succ, digitsValue] using ih

theorem encodeDigit_toNat (n : Nat) : (encodeDigit n).toNat = 0x30 + n % 10 := by
  simp only [encodeDigit, BitVec.toNat_ofNat]
  omega

theorem isDigit_iff (c : Byte) : isDigit c = true ↔ 0x30 ≤ c.toNat ∧ c.toNat ≤ 0x39 := by
  simp [isDigit]

theorem isDigit_encodeDigit (n : Nat) : isDigit (encodeDigit n) = true := by
  rw [isDigit_iff, encodeDigit_toNat]
  omega

theorem decimalAux_append (fuel n : Nat) (acc : List Byte) :
    decimalAux fuel n acc = decimalAux fuel n [] ++ acc := by
  induction fuel generalizing n acc with
  | zero => rfl
  | succ fuel ih =>
    simp only [decimalAux]
    split
    · rfl
    · rw [ih, ih (n / 10) [encodeDigit n]]
      simp

theorem digitsValue_decimalAux (fuel n : Nat) (h : n < 10 ^ fuel) :
    digitsValue (decimalAux fuel n []) = n := by
  induction fuel generalizing n with
  | zero =>
    have : n = 0 := by simpa using h
    rw [this]
    rfl
  | succ fuel ih =>
    simp only [decimalAux]
    split
    · simp only [digitsValue, List.foldl_cons, List.foldl_nil, encodeDigit_toNat]
      omega
    · rw [decimalAux_append, digitsValue_snoc, encodeDigit_toNat, ih]
      · omega
      · rw [pow_succ] at h
        omega

theorem isDigit_of_mem_decimalAux {fuel n : Nat} {c : Byte} (h : c ∈ decimalAux fuel n []) :
    isDigit c = true := by
  induction fuel generalizing n with
  | zero => cases h
  | succ fuel ih =>
    simp only [decimalAux] at h
    split at h
    · rw [List.mem_singleton.mp h]
      exact isDigit_encodeDigit n
    · rw [decimalAux_append] at h
      rcases List.mem_append.mp h with h | h
      · exact ih h
      · rw [List.mem_singleton.mp h]
        exact isDigit_encodeDigit n

/-- The decimal spelling has the value it spells. -/
theorem digitsValue_decimal {n : Nat} (h : n < 10 ^ 20) : digitsValue (decimal n) = n :=
  digitsValue_decimalAux 20 n h

theorem isDigit_of_mem_decimal {n : Nat} {c : Byte} (h : c ∈ decimal n) : isDigit c = true :=
  isDigit_of_mem_decimalAux h

theorem decimalAux_ne_nil (fuel n : Nat) : decimalAux (fuel + 1) n [] ≠ [] := by
  rw [decimalAux]
  split
  · simp
  · rw [decimalAux_append]
    simp

theorem decimal_ne_nil (n : Nat) : decimal n ≠ [] := decimalAux_ne_nil 19 n

theorem isNumber_iff (ds : List Byte) :
    isNumber ds = true ↔ ds ≠ [] ∧ ∀ c ∈ ds, isDigit c = true := by
  simp [isNumber]

/-- A digit is no separator and no parenthesis. -/
theorem isSep_of_isDigit {c : Byte} (h : isDigit c = true) : isSep c = false := by
  revert c
  decide

theorem notParen_iff (c : Byte) : notParen c = true ↔ c ≠ 0x28 ∧ c ≠ 0x29 := by
  simp [notParen]

/-- Digits without anything else, as an immediate (30_encoding.md R68). -/
theorem parseImm_of_digits {ds : List Byte} (h0 : ds ≠ []) (h1 : ∀ c ∈ ds, isDigit c = true) :
    parseImm ds = if digitsValue ds < 2 ^ 64 then .ok (BitVec.ofNat 64 (digitsValue ds))
      else .error .invalidImmediate := by
  have : isNumber ds = true := (isNumber_iff _).mpr ⟨h0, h1⟩
  simp only [parseImm, this, true_and]

/-- One or two digits after the letter, as a register (30_encoding.md R67). -/
theorem parseReg_of_digits {ds : List Byte} (h0 : ds ≠ []) (h1 : ∀ c ∈ ds, isDigit c = true)
    (h2 : ds.length ≤ 2) : parseReg (0x72 :: ds) = .ok (BitVec.ofNat 7 (digitsValue ds)) := by
  simp only [parseReg]
  rw [if_pos ⟨trivial, (isNumber_iff _).mpr ⟨h0, h1⟩, h2⟩]

/-! ### Displacement tokens (30_encoding.md R69) -/

/-- A token of the shape `digits ( X )` has its parts. -/
theorem dispShape_of_shape {ds x : List Byte} (h0 : ds ≠ []) (h1 : ∀ c ∈ ds, isDigit c = true)
    (h2 : ∀ c ∈ x, notParen c = true) : dispShape (ds ++ 0x28 :: (x ++ [0x29])) = some (ds, x) := by
  have e1 : (ds ++ 0x28 :: (x ++ [0x29])).takeWhile isDigit = ds := by
    rw [List.takeWhile_append_of_pos h1, List.takeWhile_cons_of_neg (by decide), List.append_nil]
  have e2 : (ds ++ 0x28 :: (x ++ [0x29])).dropWhile isDigit = 0x28 :: (x ++ [0x29]) := by
    rw [List.dropWhile_append_of_pos h1, List.dropWhile_cons_of_neg (by decide)]
  have e3 : (x ++ [0x29]).dropWhile notParen = [0x29] := by
    rw [List.dropWhile_append_of_pos h2, List.dropWhile_cons_of_neg (by decide)]
  have e4 : (x ++ [0x29]).takeWhile notParen = x := by
    rw [List.takeWhile_append_of_pos h2, List.takeWhile_cons_of_neg (by decide), List.append_nil]
  obtain ⟨d, ds, rfl⟩ := List.exists_cons_of_ne_nil h0
  simp only [dispShape, e1, e2]
  rw [if_pos ⟨trivial, e3⟩, e4]

/-- The parts come from a token of that shape. -/
theorem shape_of_dispShape {t ds x : List Byte} (h : dispShape t = some (ds, x)) :
    ds ≠ [] ∧ (∀ c ∈ ds, isDigit c = true) ∧ (∀ c ∈ x, notParen c = true) ∧
      t = ds ++ 0x28 :: (x ++ [0x29]) := by
  unfold dispShape at h
  split at h
  · rename_i d ds' o body h1 h2
    split at h
    · rename_i hc
      obtain ⟨rfl, hb⟩ := hc
      cases h
      have ht : d :: ds' ++ 0x28 :: body = t := by
        rw [← h1, ← h2]
        exact List.takeWhile_append_dropWhile
      have hx : body.takeWhile notParen ++ [0x29] = body := by
        rw [← hb]
        exact List.takeWhile_append_dropWhile
      refine ⟨by simp, fun c hc => ?_, fun c hc => ?_, by rw [hx, ht]⟩
      · rw [← h1] at hc
        exact List.mem_takeWhile_imp hc
      · exact List.mem_takeWhile_imp hc
    · cases h
  · cases h

/-! ### The opcode map (30_encoding.md R73) -/

/-- No two rows share a mnemonic. -/
theorem mnemonics_distinct : (opcodeTable.map Row.mnemonic).Nodup := by decide

/-- The numbers count the rows, so no two rows share one. -/
theorem ops_in_order : opcodeTable.map Row.op = List.range 30 := by decide

theorem mem_of_findMnemonic {m : Token} {row : Row} (h : findMnemonic m = some row) :
    row ∈ opcodeTable ∧ row.mnemonic = m :=
  ⟨List.mem_of_find?_eq_some h, by simpa using List.find?_some h⟩

theorem findMnemonic_eq_none {m : Token} :
    findMnemonic m = none ↔ m ∉ opcodeTable.map Row.mnemonic := by
  simp only [findMnemonic, List.find?_eq_none, List.mem_map, not_exists, not_and, beq_iff_eq]

/-- With the right number of operand tokens, decoding is parsing them (30_encoding.md R62). -/
theorem decode_of_count {line : Line} {m : Token} {args : List Token} {row : Row}
    (ht : tokens line = m :: args) (hf : findMnemonic m = some row)
    (hc : args.length = operandCount row.form) : decode line = parseOperands row.form args := by
  simp only [decode, ht, hf, hc, if_true]

theorem mem_of_findOp {op cond : Nat} {row : Row} (h : findOp op cond = some row) :
    row ∈ opcodeTable ∧ row.op = op ∧ row.cond = cond :=
  ⟨List.mem_of_find?_eq_some h, by simpa using List.find?_some h⟩

/-! ### Bundles (30_encoding.md R72) -/

theorem unpack_pack (b : Bundle) : unpackBundle (packBundle b) = b := by
  obtain ⟨op, cond, ra, rb, imm⟩ := b
  simp only [unpackBundle, packBundle, Bundle.mk.injEq]
  refine ⟨?_, ?_, ?_, ?_, ?_⟩ <;>
  · apply BitVec.eq_of_getLsbD_eq
    intro i hi
    simp only [BitVec.getLsbD_extractLsb', BitVec.getLsbD_append, hi, decide_true, Bool.true_and]
    repeat' split
    all_goals first
      | omega
      | (congr 1; omega)

/-! ### The dump command (60_exceptions.md R135) -/

/-- `dump` is no mnemonic. -/
theorem findMnemonic_dump : findMnemonic (chars ['d', 'u', 'm', 'p']) = none := by decide

end Sys2Proof

namespace Sys2Proof.Machine

theorem isDump_iff (line : Line) :
    isDump line = true ↔ tokens line = [chars ['d', 'u', 'm', 'p']] := by
  simp [isDump]

end Sys2Proof.Machine
end

