-- ==== Sys2Proof/Laws/Exec.lean ====
section
/-! SUPPORT. Everything that an instruction and a step can do, said once: the shapes of the next state, each
with what it says of the instruction. Rules over all instructions cite these and unfold no meaning. -/

namespace Sys2Proof.Machine

/-- The next states of instruction i in state s. -/
inductive Effect (i : Instr) (s : State) : State → Prop
  | fault (k : ExecFault) (hk : k ≠ .modBothZero) : Effect i s (s.respond (.execFault k))
  | modBothZero (ra rb : RegIdx) (hi : i = .modq ra rb) :
    Effect i s (s.setBothZeroFlags.respond (.execFault .modBothZero))
  | alu (b : Fin 16) (r : Word) (hi : isAlu i = true) (hb : b.val ∈ writtenRegs i) :
    Effect i s ((((s.setReg b r).setFlags r).advance 2).respond .ok)
  | move (b : Fin 16) (r : Word) (n : Nat) (hb : b.val ∈ writtenRegs i)
      (hs : storeAddress i s = none) :
    Effect i s (((s.setReg b r).advance n).respond .ok)
  | advance (n : Nat) : Effect i s ((s.advance n).respond .ok)
  | halt (hi : i = .halt) : Effect i s (({ s with H := true } : State).respond .halted)
  | transfer (target : Word)
      (hi : i ∈ ([.call target, .jmp target, .je target, .jne target, .jl target, .jle target,
        .jg target, .jge target] : List Instr)) :
    Effect i s ((s.transfer target).respond .ok)
  | store (a v : Word) (ha : storeAddress i s = some a) (hb : s.inBounds a) :
    Effect i s ((({ s with mem := s.mem.writeBytes (u64 a) (quadBytes v) } : State).advance
      10).respond .ok)
  | push (v : Word) (ha : storeAddress i s = some (pushAddress s)) (hr : 4 ∈ writtenRegs i)
      (hb : s.inBounds (pushAddress s)) :
    Effect i s (((({ s with
      mem := s.mem.writeBytes (u64 (pushAddress s)) (quadBytes v) } : State).setReg spIndex
        (pushAddress s)).advance 2).respond .ok)
  | call (v target : Word) (hi : i = .call target) (hb : s.inBounds (pushAddress s)) :
    Effect i s (((({ s with
      mem := s.mem.writeBytes (u64 (pushAddress s)) (quadBytes v) } : State).setReg spIndex
        (pushAddress s)).transfer target).respond .ok)
  | pop (a : Fin 16) (v : Word) (hi : ∃ ra : RegIdx, ra.toNat = a.val ∧ i = .popq ra) :
    Effect i s (((popStack (s.setReg a v)).advance 2).respond .ok)
  | ret (v : Word) (hi : i = .ret) : Effect i s (((popStack s).transfer v).respond .ok)

variable {i : Instr} {s t : State}

theorem effect_aluOp {f : Word → Word → Word} {ra rb : RegIdx} (hi : isAlu i = true)
    (hw : writtenRegs i = [rb.toNat]) (h : aluOp f ra rb s = .next t) : Effect i s t := by
  rcases aluOp_next h with ⟨a, b, -, hb, h⟩ | ⟨-, rfl⟩
  · rw [aluResult_next h]
    exact .alu b _ hi (by simp [hw, hb])
  · exact .fault _ (by decide)

theorem effect_cmov {cc : Bool} {ra rb : RegIdx} (hw : writtenRegs i = [rb.toNat])
    (hs : storeAddress i s = none) (h : cmov cc ra rb s = .next t) : Effect i s t := by
  rcases cmov_next h with ⟨a, b, -, hb, rfl⟩ | ⟨-, rfl⟩
  · split
    · exact .move b _ 2 (by simp [hw, hb]) hs
    · exact .advance 2
  · exact .fault _ (by decide)

theorem effect_jump {cc : Bool} {target : Word}
    (hi : i ∈ ([.call target, .jmp target, .je target, .jne target, .jl target, .jle target,
      .jg target, .jge target] : List Instr)) (h : jump cc target s = .next t) : Effect i s t := by
  rw [jump_eq, next_inj] at h
  subst h
  split
  · exact .transfer target hi
  · exact .advance 9

/-- An instruction's next state is one of these. -/
theorem effect_of_exec (h : exec i s = .next t) : Effect i s t := by
  cases i <;> simp only [exec] at h
  case nop =>
    rw [← next_inj.mp h]
    exact .advance 1
  case halt =>
    rw [← next_inj.mp h]
    exact .halt rfl
  case rrmovq ra rb =>
    rcases withRegs_next h with ⟨a, b, -, hb, h⟩ | ⟨-, rfl⟩
    · rw [← next_inj.mp h]
      exact .move b _ 2 (by simp [writtenRegs, hb]) rfl
    · exact .fault _ (by decide)
  case irmovq v rb =>
    rcases withReg_next h with ⟨b, hb, h⟩ | ⟨-, rfl⟩
    · rw [← next_inj.mp h]
      exact .move b _ 10 (by simp [writtenRegs, hb]) rfl
    · exact .fault _ (by decide)
  case rmmovq ra d rb =>
    rcases withRegs_next h with ⟨a, b, -, hb, h⟩ | ⟨-, rfl⟩
    · rcases storeThen_next h with ⟨hin, h⟩ | ⟨-, rfl⟩
      · rw [← next_inj.mp h]
        exact .store _ _ (by simp [storeAddress, regOf_of_eq hb]) hin
      · exact .fault _ (by decide)
    · exact .fault _ (by decide)
  case mrmovq d rb ra =>
    rcases withRegs_next h with ⟨a, b, ha, -, h⟩ | ⟨-, rfl⟩
    · rcases loadThen_next h with ⟨-, h⟩ | ⟨-, rfl⟩
      · rw [← next_inj.mp h]
        exact .move a _ 10 (by simp [writtenRegs, ha]) rfl
      · exact .fault _ (by decide)
    · exact .fault _ (by decide)
  case pushq ra =>
    rcases withReg_next h with ⟨a, -, h⟩ | ⟨-, rfl⟩
    · split at h
      · rw [← next_inj.mp h]
        exact .fault _ (by decide)
      · rcases storeThen_next h with ⟨hin, h⟩ | ⟨-, rfl⟩
        · rw [← next_inj.mp h]
          exact .push _ rfl (by simp [writtenRegs]) hin
        · exact .fault _ (by decide)
    · exact .fault _ (by decide)
  case popq ra =>
    rcases withReg_next h with ⟨a, ha, h⟩ | ⟨-, rfl⟩
    · rcases loadThen_next h with ⟨-, h⟩ | ⟨-, rfl⟩
      · rw [← next_inj.mp h]
        exact .pop a _ ⟨ra, ha, rfl⟩
      · exact .fault _ (by decide)
    · exact .fault _ (by decide)
  case call target =>
    rw [execCall] at h
    split at h
    · rw [← next_inj.mp h]
      exact .fault _ (by decide)
    · rcases storeThen_next h with ⟨hin, h⟩ | ⟨-, rfl⟩
      · rw [← next_inj.mp h]
        exact .call _ target rfl hin
      · exact .fault _ (by decide)
  case ret =>
    rcases loadThen_next h with ⟨-, h⟩ | ⟨-, rfl⟩
    · rw [← next_inj.mp h]
      exact .ret _ rfl
    · exact .fault _ (by decide)
  case divq ra rb =>
    rcases execDivq_next h with ⟨a, b, -, hb, h⟩ | ⟨-, rfl⟩
    · rcases h with ⟨-, rfl⟩ | ⟨-, -, rfl⟩ | ⟨-, -, h⟩
      · exact .fault _ (by decide)
      · exact .fault _ (by decide)
      · rw [aluResult_next h]
        exact .alu b _ rfl (by simp [writtenRegs, hb])
    · exact .fault _ (by decide)
  case modq ra rb =>
    rcases execModq_next h with ⟨a, b, -, hb, h⟩ | ⟨-, rfl⟩
    · rcases h with ⟨-, -, rfl⟩ | ⟨-, -, rfl⟩ | ⟨-, -, rfl⟩ | ⟨-, -, h⟩
      · exact .modBothZero ra rb rfl
      · exact .advance 2
      · exact .fault _ (by decide)
      · rw [aluResult_next h]
        exact .alu b _ rfl (by simp [writtenRegs, hb])
    · exact .fault _ (by decide)
  case addq => exact effect_aluOp rfl rfl h
  case subq => exact effect_aluOp rfl rfl h
  case mulq => exact effect_aluOp rfl rfl h
  case andq => exact effect_aluOp rfl rfl h
  case xorq => exact effect_aluOp rfl rfl h
  case jmp => exact effect_jump (by simp) h
  case je => exact effect_jump (by simp) h
  case jne => exact effect_jump (by simp) h
  case jl => exact effect_jump (by simp) h
  case jle => exact effect_jump (by simp) h
  case jg => exact effect_jump (by simp) h
  case jge => exact effect_jump (by simp) h
  all_goals exact effect_cmov rfl rfl h

/-- Everything that a step can do (00_scope.md R15; log 2). -/
theorem step_cases (h : step s = .next t) :
    (s.req = [] ∧ t = s) ∨
      ∃ line later, s.req = line :: later ∧
        ((isDump line = true ∧ t = ({ s with req := later } : State).respondDump) ∨
         (∃ k, decode line = .error k ∧ t = ({ s with req := later } : State).respond (.decodeFault k)) ∨
         ∃ i, decode line = .ok i ∧ exec i { s with req := later } = .next t) := by
  unfold step nextRequest at h
  split at h
  · exact .inl ⟨‹_›, (next_inj.mp h).symm⟩
  · rename_i line later heq
    refine .inr ⟨line, later, heq, ?_⟩
    unfold transact at h
    split at h
    · exact .inl ⟨‹_›, (next_inj.mp h).symm⟩
    · split at h
      · exact .inr (.inl ⟨_, ‹_›, (next_inj.mp h).symm⟩)
      · exact .inr (.inr ⟨_, ‹_›, h⟩)

end Sys2Proof.Machine
end

