-- ==== Sys2Proof/Laws/PerInstr.lean ====
section
/-! SUPPORT. One statement for every instruction as syntax: its bundle has the op and cond numbers of the row
of the opcode map that builds it (30_encoding.md R72, R73, R75). -/

namespace Sys2Proof.Laws.BundleHeader

/-- The op number of a row of the map stands in bits 85:81, its cond number in bits 80:78 (30_encoding.md R72),
and the row's format builds the instruction back from the bundle's fields. -/
def Statement (i : Instr) : Prop :=
  ∃ row ∈ opcodeTable, (encodeBundle i).extractLsb' 81 5 = BitVec.ofNat 5 row.op ∧
    (encodeBundle i).extractLsb' 78 3 = BitVec.ofNat 3 row.cond ∧
    formFromFields row.form (toBundle i) = i

theorem op_of_pack (b : Bundle) : (packBundle b).extractLsb' 81 5 = b.op := by
  apply BitVec.eq_of_getLsbD_eq
  intro i hi
  simp only [packBundle, BitVec.getLsbD_extractLsb', BitVec.getLsbD_append, hi, decide_true, Bool.true_and]
  repeat' split
  all_goals first
    | omega
    | (congr 1; omega)

theorem cond_of_pack (b : Bundle) : (packBundle b).extractLsb' 78 3 = b.cond := by
  apply BitVec.eq_of_getLsbD_eq
  intro i hi
  simp only [packBundle, BitVec.getLsbD_extractLsb', BitVec.getLsbD_append, hi, decide_true, Bool.true_and]
  repeat' split
  all_goals first
    | omega
    | (congr 1; omega)

/-- The statement from the row at the instruction's op number. -/
theorem of_rowAt {i : Instr} (hm : rowAt (bundleFields i).1 ∈ opcodeTable)
    (hop : (rowAt (bundleFields i).1).op = (bundleFields i).1)
    (hf : formFromFields (rowAt (bundleFields i).1).form (toBundle i) = i) : Statement i :=
  ⟨_, hm, by rw [encodeBundle, op_of_pack, hop]; rfl, by rw [encodeBundle, cond_of_pack]; rfl, hf⟩

theorem rowAt_mem (n : Nat) (h : n < 30) : rowAt n ∈ opcodeTable := by
  have e : opcodeTable.length = 30 := rfl
  rw [rowAt, List.getD_eq_getElem _ _ (by omega)]
  exact List.getElem_mem _

theorem nop : Statement .nop :=
  of_rowAt (rowAt_mem 0 (by decide)) rfl rfl

theorem halt : Statement .halt :=
  of_rowAt (rowAt_mem 1 (by decide)) rfl rfl

theorem rrmovq (ra rb : RegIdx) : Statement (.rrmovq ra rb) :=
  of_rowAt (rowAt_mem 2 (by decide)) rfl rfl

theorem irmovq (v : Word) (rb : RegIdx) : Statement (.irmovq v rb) :=
  of_rowAt (rowAt_mem 3 (by decide)) rfl rfl

theorem rmmovq (ra : RegIdx) (d : Word) (rb : RegIdx) : Statement (.rmmovq ra d rb) :=
  of_rowAt (rowAt_mem 4 (by decide)) rfl rfl

theorem mrmovq (d : Word) (rb ra : RegIdx) : Statement (.mrmovq d rb ra) :=
  of_rowAt (rowAt_mem 5 (by decide)) rfl rfl

theorem pushq (ra : RegIdx) : Statement (.pushq ra) :=
  of_rowAt (rowAt_mem 6 (by decide)) rfl rfl

theorem popq (ra : RegIdx) : Statement (.popq ra) :=
  of_rowAt (rowAt_mem 7 (by decide)) rfl rfl

theorem call (target : Word) : Statement (.call target) :=
  of_rowAt (rowAt_mem 8 (by decide)) rfl rfl

theorem ret : Statement .ret :=
  of_rowAt (rowAt_mem 9 (by decide)) rfl rfl

theorem jmp (target : Word) : Statement (.jmp target) :=
  of_rowAt (rowAt_mem 10 (by decide)) rfl rfl

theorem je (target : Word) : Statement (.je target) :=
  of_rowAt (rowAt_mem 11 (by decide)) rfl rfl

theorem jne (target : Word) : Statement (.jne target) :=
  of_rowAt (rowAt_mem 12 (by decide)) rfl rfl

theorem jl (target : Word) : Statement (.jl target) :=
  of_rowAt (rowAt_mem 13 (by decide)) rfl rfl

theorem jle (target : Word) : Statement (.jle target) :=
  of_rowAt (rowAt_mem 14 (by decide)) rfl rfl

theorem jg (target : Word) : Statement (.jg target) :=
  of_rowAt (rowAt_mem 15 (by decide)) rfl rfl

theorem jge (target : Word) : Statement (.jge target) :=
  of_rowAt (rowAt_mem 16 (by decide)) rfl rfl

theorem addq (ra rb : RegIdx) : Statement (.addq ra rb) :=
  of_rowAt (rowAt_mem 17 (by decide)) rfl rfl

theorem subq (ra rb : RegIdx) : Statement (.subq ra rb) :=
  of_rowAt (rowAt_mem 18 (by decide)) rfl rfl

theorem mulq (ra rb : RegIdx) : Statement (.mulq ra rb) :=
  of_rowAt (rowAt_mem 19 (by decide)) rfl rfl

theorem modq (ra rb : RegIdx) : Statement (.modq ra rb) :=
  of_rowAt (rowAt_mem 20 (by decide)) rfl rfl

theorem divq (ra rb : RegIdx) : Statement (.divq ra rb) :=
  of_rowAt (rowAt_mem 21 (by decide)) rfl rfl

theorem andq (ra rb : RegIdx) : Statement (.andq ra rb) :=
  of_rowAt (rowAt_mem 22 (by decide)) rfl rfl

theorem xorq (ra rb : RegIdx) : Statement (.xorq ra rb) :=
  of_rowAt (rowAt_mem 23 (by decide)) rfl rfl

theorem cmove (ra rb : RegIdx) : Statement (.cmove ra rb) :=
  of_rowAt (rowAt_mem 24 (by decide)) rfl rfl

theorem cmovne (ra rb : RegIdx) : Statement (.cmovne ra rb) :=
  of_rowAt (rowAt_mem 25 (by decide)) rfl rfl

theorem cmovl (ra rb : RegIdx) : Statement (.cmovl ra rb) :=
  of_rowAt (rowAt_mem 26 (by decide)) rfl rfl

theorem cmovle (ra rb : RegIdx) : Statement (.cmovle ra rb) :=
  of_rowAt (rowAt_mem 27 (by decide)) rfl rfl

theorem cmovg (ra rb : RegIdx) : Statement (.cmovg ra rb) :=
  of_rowAt (rowAt_mem 28 (by decide)) rfl rfl

theorem cmovge (ra rb : RegIdx) : Statement (.cmovge ra rb) :=
  of_rowAt (rowAt_mem 29 (by decide)) rfl rfl

end Sys2Proof.Laws.BundleHeader
end

