-- ==== Sys2Proof/Tests/Slice0.lean ====
section
/-! SUPPORT. Tests: ill-formed terms that WellFormed refuses; every constructor's line and bundle; one step each;
and for every obligation with hypotheses a state and operands that meet them. Expected values are those of
95_test_vectors.md, or worked out by hand from the rule that the comment names. -/

namespace Sys2Proof.Tests

open Sys2Proof.Machine

/-! ### Helpers -/

def text (t : String) : Line := chars t.toList

/-- The reset state with the listed registers. -/
def regs (rs : List (Fin 16 × Word)) : State := rs.foldl (fun s r => s.setReg r.1 r.2) State.reset

/-- The state with the listed quads in memory. -/
def withQuads (s : State) (qs : List (Nat × Word)) : State :=
  { s with mem := qs.foldl (fun m q => m.writeBytes q.1 (quadBytes q.2)) s.mem }

/-- The state after one step on a line. -/
def after (s : State) (t : String) : State :=
  match step (s.send (text t)) with
  | .next u => u
  | .fault _ => s
  | .refused _ => s

/-- The status codes given so far. -/
def codes (s : State) : List Byte := s.rsp.map fun r => r.status.code

/-! ### WellFormed: a register field of 99 is well formed, one of 100 is not, in every field -/

theorem wellFormed_at_99 : (Instr.addq 99 99).wellFormed ∧ (Instr.pushq 99).wellFormed ∧
    (Instr.irmovq 0 99).wellFormed ∧ (Instr.rmmovq 99 0 99).wellFormed ∧
    (Instr.mrmovq 0 99 99).wellFormed ∧ Instr.nop.wellFormed ∧ (Instr.call 0).wellFormed := by decide

theorem ill_formed_RR_ra : ¬ (Instr.addq 100 0).wellFormed := by decide
theorem ill_formed_RR_rb : ¬ (Instr.addq 0 100).wellFormed := by decide
theorem ill_formed_R_ra : ¬ (Instr.pushq 100).wellFormed := by decide
theorem ill_formed_IR_rb : ¬ (Instr.irmovq 0 100).wellFormed := by decide
theorem ill_formed_RM_ra : ¬ (Instr.rmmovq 100 0 0).wellFormed := by decide
theorem ill_formed_RM_rb : ¬ (Instr.rmmovq 0 0 100).wellFormed := by decide
theorem ill_formed_MR_rb : ¬ (Instr.mrmovq 0 100 0).wellFormed := by decide
theorem ill_formed_MR_ra : ¬ (Instr.mrmovq 0 0 100).wellFormed := by decide

/-! ### Decoding: the line and the bundle, as 95_test_vectors.md writes them -/

theorem test_decode_nop : decode (text "nop") = .ok .nop ∧
    decodeTableWord 88 0x0000000000000000000000 = some .nop := by decide

theorem test_decode_halt : decode (text "halt") = .ok .halt ∧
    decodeTableWord 88 0x0200000000000000000000 = some .halt := by decide

theorem test_decode_rrmovq : decode (text "rrmovq r99,r2") = .ok (.rrmovq 99 2) ∧
    decodeTableWord 88 0x0431820000000000000000 = some (.rrmovq 99 2) := by decide

theorem test_decode_irmovq : decode (text "irmovq 18446744073709551615,r15") = .ok (.irmovq 0xFFFFFFFFFFFFFFFF 15) ∧
    decodeTableWord 88 0x06000FFFFFFFFFFFFFFFFF = some (.irmovq 0xFFFFFFFFFFFFFFFF 15) := by decide

theorem test_decode_rmmovq : decode (text "rmmovq r1,18446744073709551608(r2)") = .ok (.rmmovq 1 0xFFFFFFFFFFFFFFF8 2) ∧
    decodeTableWord 88 0x080082FFFFFFFFFFFFFFF8 = some (.rmmovq 1 0xFFFFFFFFFFFFFFF8 2) := by decide

theorem test_decode_mrmovq : decode (text "mrmovq 9(r0),r3") = .ok (.mrmovq 9 0 3) ∧
    decodeTableWord 88 0x0A01800000000000000009 = some (.mrmovq 9 0 3) := by decide

theorem test_decode_pushq : decode (text "pushq r16") = .ok (.pushq 16) ∧
    decodeTableWord 88 0x0C08000000000000000000 = some (.pushq 16) := by decide

theorem test_decode_popq : decode (text "popq r4") = .ok (.popq 4) ∧
    decodeTableWord 88 0x0E02000000000000000000 = some (.popq 4) := by decide

theorem test_decode_call : decode (text "call 256") = .ok (.call 256) ∧
    decodeTableWord 88 0x1000000000000000000100 = some (.call 256) := by decide

theorem test_decode_ret : decode (text "ret") = .ok .ret ∧
    decodeTableWord 88 0x1200000000000000000000 = some .ret := by decide

theorem test_decode_jmp : decode (text "jmp 256") = .ok (.jmp 256) ∧
    decodeTableWord 88 0x1400000000000000000100 = some (.jmp 256) := by decide

theorem test_decode_je : decode (text "je 64") = .ok (.je 64) ∧
    decodeTableWord 88 0x16C0000000000000000040 = some (.je 64) := by decide

theorem test_decode_jne : decode (text "jne 64") = .ok (.jne 64) ∧
    decodeTableWord 88 0x1900000000000000000040 = some (.jne 64) := by decide

theorem test_decode_jl : decode (text "jl 999") = .ok (.jl 999) ∧
    decodeTableWord 88 0x1A800000000000000003E7 = some (.jl 999) := by decide

theorem test_decode_jle : decode (text "jle 64") = .ok (.jle 64) ∧
    decodeTableWord 88 0x1C40000000000000000040 = some (.jle 64) := by decide

theorem test_decode_jg : decode (text "jg 64") = .ok (.jg 64) ∧
    decodeTableWord 88 0x1F80000000000000000040 = some (.jg 64) := by decide

theorem test_decode_jge : decode (text "jge 64") = .ok (.jge 64) ∧
    decodeTableWord 88 0x2140000000000000000040 = some (.jge 64) := by decide

theorem test_decode_addq : decode (text "addq r16,r2") = .ok (.addq 16 2) ∧
    decodeTableWord 88 0x2208020000000000000000 = some (.addq 16 2) := by decide

theorem test_decode_subq : decode (text "subq r2,r1") = .ok (.subq 2 1) ∧
    decodeTableWord 88 0x2401010000000000000000 = some (.subq 2 1) := by decide

theorem test_decode_mulq : decode (text "mulq r1,r2") = .ok (.mulq 1 2) ∧
    decodeTableWord 88 0x2600820000000000000000 = some (.mulq 1 2) := by decide

theorem test_decode_modq : decode (text "modq r3,r6") = .ok (.modq 3 6) ∧
    decodeTableWord 88 0x2801860000000000000000 = some (.modq 3 6) := by decide

theorem test_decode_divq : decode (text "divq r1,r2") = .ok (.divq 1 2) ∧
    decodeTableWord 88 0x2A00820000000000000000 = some (.divq 1 2) := by decide

theorem test_decode_andq : decode (text "andq r1,r2") = .ok (.andq 1 2) ∧
    decodeTableWord 88 0x2C00820000000000000000 = some (.andq 1 2) := by decide

theorem test_decode_xorq : decode (text "xorq r1,r2") = .ok (.xorq 1 2) ∧
    decodeTableWord 88 0x2E00820000000000000000 = some (.xorq 1 2) := by decide

theorem test_decode_cmove : decode (text "cmove r3,r20") = .ok (.cmove 3 20) ∧
    decodeTableWord 88 0x30C1940000000000000000 = some (.cmove 3 20) := by decide

theorem test_decode_cmovne : decode (text "cmovne r3,r4") = .ok (.cmovne 3 4) ∧
    decodeTableWord 88 0x3301840000000000000000 = some (.cmovne 3 4) := by decide

theorem test_decode_cmovl : decode (text "cmovl r3,r4") = .ok (.cmovl 3 4) ∧
    decodeTableWord 88 0x3481840000000000000000 = some (.cmovl 3 4) := by decide

theorem test_decode_cmovle : decode (text "cmovle r3,r4") = .ok (.cmovle 3 4) ∧
    decodeTableWord 88 0x3641840000000000000000 = some (.cmovle 3 4) := by decide

theorem test_decode_cmovg : decode (text "cmovg r3,r4") = .ok (.cmovg 3 4) ∧
    decodeTableWord 88 0x3981840000000000000000 = some (.cmovg 3 4) := by decide

theorem test_decode_cmovge : decode (text "cmovge r1,r8") = .ok (.cmovge 1 8) ∧
    decodeTableWord 88 0x3B40880000000000000000 = some (.cmovge 1 8) := by decide

/-- The faults of 95_test_vectors.md, section 3.1, one or two for each cause. -/
theorem test_decode_faults :
    decode (text " , ,") = .error .emptyLine ∧
    decode (text "ADDQ r1,r2") = .error .unknownMnemonic ∧
    decode (text "dump r1") = .error .unknownMnemonic ∧
    decode (text "addq x") = .error .operandCount ∧
    decode (text "mrmovq 8( r2 ),r1") = .error .operandCount ∧
    decode (text "addq r001,r2") = .error .invalidRegister ∧
    decode (text "rmmovq r99x,8(r2") = .error .invalidRegister ∧
    decode (text "mrmovq 8(),r1") = .error .invalidRegister := by decide

theorem test_decode_faults_of_numbers :
    decode (text "irmovq -1,r1") = .error .invalidImmediate ∧
    decode (text "irmovq 18446744073709551616,r1") = .error .invalidImmediate ∧
    decode (text "irmovq 1x,r100") = .error .invalidImmediate ∧
    decode (text "rmmovq r1,(r2)") = .error .invalidDisplacement ∧
    decode (text "mrmovq 18446744073709551616(r2),r1") = .error .invalidDisplacement ∧
    decode (text "mrmovq 8(r2)x,r1") = .error .invalidDisplacement := by decide

/-- Bundles without a meaning (30_encoding.md R75): op 30, op 31, je with cond 0. -/
theorem test_decode_unused_bundles :
    decodeBundle 0x3C00000000000000000000 = none ∧ decodeBundle 0x3E00000000000000000000 = none ∧
    decodeBundle 0x1600000000000000000000 = none := by decide

/-- The canonical line of R76: no leading zeros, one space, one comma. -/
theorem test_encode : encode (.rmmovq 1 8 2) = text "rmmovq r1,8(r2)" ∧
    encode (.irmovq 0 0) = text "irmovq 0,r0" ∧ encode .ret = text "ret" := by decide

/-! ### One step: the vectors of 95_test_vectors.md, sections 3.2 to 3.8 -/

theorem test_nop_wraps :
    let t := after { State.reset with pc := 0xFFFFFFFFFFFFFFFF } "nop"
    t.pc = 0 ∧ codes t = [0x00] := by decide

theorem test_nop_while_halted :
    let t := after { State.reset with pc := 0x2A, H := true } "nop"
    t.pc = 0x2A ∧ codes t = [0x00] := by decide

theorem test_halt :
    let t := after { State.reset with pc := 0x2A } "halt"
    t.H = true ∧ t.pc = 0x2A ∧ codes t = [0x01] := by decide

theorem test_halt_again :
    let t := after { State.reset with pc := 0x2A, H := true } "halt"
    t.H = true ∧ t.pc = 0x2A ∧ codes t = [0x01] := by decide

theorem test_irmovq :
    let t := after State.reset "irmovq 1024,r4"
    t.reg 4 = 0x400 ∧ t.pc = 10 ∧ codes t = [0x00] := by decide

theorem test_irmovq_while_halted :
    let t := after { State.reset with pc := 0x30, H := true } "irmovq 42,r9"
    t.reg 9 = 0x2A ∧ t.pc = 0x30 := by decide

theorem test_rrmovq :
    let t := after (regs [(1, 7)]) "rrmovq r1,r2"
    t.reg 2 = 7 ∧ t.reg 1 = 7 ∧ t.pc = 2 := by decide

theorem test_rrmovq_r99 :
    let t := after (regs [(1, 7)]) "rrmovq r99,r2"
    t.reg 2 = 0 ∧ t.pc = 0 ∧ codes t = [0x20] := by decide

theorem test_addq_signed_wrap :
    let t := after (regs [(1, 1), (2, 0x7FFFFFFFFFFFFFFF)]) "addq r1,r2"
    t.reg 2 = 0x8000000000000000 ∧ t.S = true ∧ t.Z = false ∧ t.pc = 2 := by decide

theorem test_addq_same_register :
    let t := after (regs [(1, 0x8000000000000000)]) "addq r1,r1"
    t.reg 1 = 0 ∧ t.Z = true ∧ t.S = false := by decide

theorem test_subq_negative :
    let t := after (regs [(1, 5), (2, 3)]) "subq r1,r2"
    t.reg 2 = 0xFFFFFFFFFFFFFFFE ∧ t.S = true ∧ t.pc = 2 := by decide

theorem test_subq_wrap :
    let t := after (regs [(1, 1), (2, 0x8000000000000000)]) "subq r1,r2"
    t.reg 2 = 0x7FFFFFFFFFFFFFFF ∧ t.S = false ∧ t.Z = false := by decide

theorem test_mulq_negative :
    let t := after (regs [(1, 4), (2, 0xFFFFFFFFFFFFFFFD)]) "mulq r1,r2"
    t.reg 2 = 0xFFFFFFFFFFFFFFF4 ∧ t.S = true := by decide

theorem test_mulq_wraps_to_0 :
    let t := after (regs [(1, 0x100000000), (2, 0x100000000)]) "mulq r1,r2"
    t.reg 2 = 0 ∧ t.Z = true := by decide

theorem test_modq_sign_of_dividend :
    let t := after (regs [(1, 0xFFFFFFFFFFFFFFFE), (2, 0xFFFFFFFFFFFFFFF9)]) "modq r1,r2"
    t.reg 2 = 0xFFFFFFFFFFFFFFFF ∧ t.S = true ∧ t.pc = 2 := by decide

theorem test_modq_both_0 :
    let t := after { State.reset with S := true } "modq r1,r2"
    t.Z = true ∧ t.S = true ∧ t.pc = 0 ∧ codes t = [0x25] := by decide

theorem test_divq_truncates :
    let t := after (regs [(1, 2), (2, 0xFFFFFFFFFFFFFFF9)]) "divq r1,r2"
    t.reg 2 = 0xFFFFFFFFFFFFFFFD ∧ t.S = true := by decide

theorem test_divq_overflow :
    let t := after (regs [(1, 0xFFFFFFFFFFFFFFFF), (2, 0x8000000000000000)]) "divq r1,r2"
    t.reg 2 = 0x8000000000000000 ∧ t.pc = 0 ∧ codes t = [0x26] := by decide

theorem test_andq :
    let t := after (regs [(1, 0xF0), (2, 0x3C)]) "andq r1,r2"
    t.reg 2 = 0x30 ∧ t.Z = false := by decide

theorem test_xorq_self :
    let t := after (regs [(1, 0xDEAD)]) "xorq r1,r1"
    t.reg 1 = 0 ∧ t.Z = true := by decide

theorem test_cmove :
    let flags := regs [(3, 9), (4, 1)]
    (after { flags with Z := false, S := true } "cmove r3,r4").reg 4 = 1 ∧
      (after { flags with Z := true, S := false } "cmove r3,r4").reg 4 = 9 := by decide

theorem test_cmovne :
    let flags := regs [(3, 9), (4, 1)]
    (after { flags with Z := true, S := false } "cmovne r3,r4").reg 4 = 1 ∧
      (after { flags with Z := false, S := true } "cmovne r3,r4").reg 4 = 9 := by decide

theorem test_cmovl :
    let flags := regs [(3, 9), (4, 1)]
    (after { flags with Z := true, S := true } "cmovl r3,r4").reg 4 = 1 ∧
      (after { flags with Z := false, S := true } "cmovl r3,r4").reg 4 = 9 := by decide

theorem test_cmovle :
    let flags := regs [(3, 9), (4, 1)]
    (after { flags with Z := false, S := false } "cmovle r3,r4").reg 4 = 1 ∧
      (after { flags with Z := true, S := true } "cmovle r3,r4").reg 4 = 9 := by decide

theorem test_cmovg :
    let flags := regs [(3, 9), (4, 1)]
    (after { flags with Z := false, S := true } "cmovg r3,r4").reg 4 = 1 ∧
      (after { flags with Z := false, S := false } "cmovg r3,r4").reg 4 = 9 := by decide

theorem test_cmovge :
    let flags := regs [(3, 9), (4, 1)]
    (after { flags with Z := false, S := true } "cmovge r3,r4").reg 4 = 1 ∧
      (after { flags with Z := true, S := true } "cmovge r3,r4").reg 4 = 9 := by decide

theorem test_je :
    (after { State.reset with pc := 0x10, Z := true, S := true } "je 64").pc = 0x19 ∧
      (after { State.reset with pc := 0x10, Z := true, S := false } "je 64").pc = 0x40 := by decide

theorem test_jne :
    (after { State.reset with pc := 0x10, Z := true, S := false } "jne 64").pc = 0x19 ∧
      (after { State.reset with pc := 0x10, Z := false, S := true } "jne 64").pc = 0x40 := by decide

theorem test_jl :
    (after { State.reset with pc := 0x10, Z := true, S := true } "jl 64").pc = 0x19 ∧
      (after { State.reset with pc := 0x10, Z := false, S := true } "jl 64").pc = 0x40 := by decide

theorem test_jle :
    (after { State.reset with pc := 0x10, Z := false, S := false } "jle 64").pc = 0x19 ∧
      (after { State.reset with pc := 0x10, Z := true, S := true } "jle 64").pc = 0x40 := by decide

theorem test_jg :
    (after { State.reset with pc := 0x10, Z := false, S := true } "jg 64").pc = 0x19 ∧
      (after { State.reset with pc := 0x10, Z := false, S := false } "jg 64").pc = 0x40 := by decide

theorem test_jge :
    (after { State.reset with pc := 0x10, Z := false, S := true } "jge 64").pc = 0x19 ∧
      (after { State.reset with pc := 0x10, Z := true, S := true } "jge 64").pc = 0x40 := by decide

theorem test_jmp :
    let t := after { State.reset with pc := 0x10 } "jmp 256"
    t.pc = 0x100 ∧ codes t = [0x00] := by decide

theorem test_jmp_halted_freezeAdvanceOnly :
    let t := after { State.reset with pc := 0x10, H := true, haltPcPolicy := .freezeAdvanceOnly } "jmp 256"
    t.pc = 0x100 := by decide

theorem test_rmmovq_little_endian :
    let t := after (regs [(1, 0x1122334455667788), (2, 16)]) "rmmovq r1,8(r2)"
    t.mem.read 24 = 0x88 ∧ t.mem.read 31 = 0x11 ∧ t.mem.read 32 = 0 ∧ t.pc = 10 := by decide

theorem test_rmmovq_address_wraps :
    let t := after (regs [(1, 7), (2, 0xFFFFFFFFFFFFFFF8)]) "rmmovq r1,8(r2)"
    t.mem = [(0, 7)] ∧ codes t = [0x00] := by decide

theorem test_mrmovq_unaligned :
    let t := after (withQuads State.reset [(8, 0x1122334455667788)]) "mrmovq 9(r0),r3"
    t.reg 3 = 0x0011223344556677 ∧ t.pc = 10 := by decide

theorem test_mrmovq_below_window :
    let t := after { regs [(0, 0xFF8), (3, 1)] with startAddr := 0x1000, validMem := 64 } "mrmovq 0(r0),r3"
    t.reg 3 = 1 ∧ t.pc = 0 ∧ codes t = [0x21] := by decide

theorem test_pushq_r4_old_value :
    let t := after (regs [(4, 0x400)]) "pushq r4"
    t.reg 4 = 0x3F8 ∧ t.mem = [(1017, 4)] ∧ t.pc = 2 := by decide

theorem test_pushq_guard :
    let t := after (regs [(1, 5), (4, 7)]) "pushq r1"
    t.reg 4 = 7 ∧ t.mem = [] ∧ codes t = [0x22] := by decide

theorem test_popq :
    let t := after (withQuads (regs [(4, 0x3F8)]) [(1016, 5)]) "popq r2"
    t.reg 2 = 5 ∧ t.reg 4 = 0x400 ∧ t.pc = 2 := by decide

theorem test_popq_r4 :
    let t := after (withQuads (regs [(4, 0x3F8)]) [(1016, 0x100)]) "popq r4"
    t.reg 4 = 0x108 := by decide

theorem test_call :
    let t := after { regs [(4, 0x400)] with pc := 0x20 } "call 256"
    t.reg 4 = 0x3F8 ∧ t.mem = [(1016, 0x29)] ∧ t.pc = 0x100 := by decide

theorem test_call_sp_5 :
    let t := after { regs [(4, 5)] with pc := 0x20 } "call 256"
    t.reg 4 = 5 ∧ t.pc = 0x20 ∧ codes t = [0x21] := by decide

theorem test_ret :
    let t := after { withQuads (regs [(4, 0x3F8)]) [(1016, 0x29)] with pc := 0x100 } "ret"
    t.reg 4 = 0x400 ∧ t.pc = 0x29 := by decide

theorem test_ret_halted :
    let t := after { withQuads (regs [(4, 0x3F8)]) [(1016, 0x29)] with pc := 0x100, H := true } "ret"
    t.reg 4 = 0x400 ∧ t.pc = 0x100 := by decide

/-! ### Requests, the dump, the text, memory -/

/-- With no request a step changes nothing; a decode fault changes only the responses; the oldest line goes
first (00_scope.md R14, 30_encoding.md R62). -/
theorem test_requests :
    (∃ s, step State.reset = .next s ∧ s = State.reset) ∧
    after State.reset "foobar r1,r2" = { State.reset with rsp := [⟨.decodeFault .unknownMnemonic, none⟩] } ∧
    (after (State.reset.send (text "irmovq 5,r1")) "halt").req = [text "halt"] :=
  ⟨⟨_, rfl, rfl⟩, by decide, by decide⟩

/-- 95_test_vectors.md, section 3.9: S = 1 with the Z of a MOD_BOTH_ZERO fault; `dump` with separators
around it, while H = 1. -/
theorem test_dump :
    let t := after { State.reset with S := true, Z := true, H := true } " dump "
    codes t = [0x02] ∧ t.H = true ∧
      (t.rsp.map fun r => r.snapshot.map flagSummary) = [some (text "-SZ")] := by decide

/-- The layout of 60_exceptions.md R137 and the texts of 92_eei_decisions.md D31. -/
theorem test_text :
    (snapshotLines { State.reset.snapshot with pc := 0x2F })[17]? = some (text "pc: 000000000000002f") ∧
    (snapshotLines State.reset.snapshot)[15]? = some (text "r15: 0000000000000000") ∧
    responseLines ⟨.halted, none⟩ = [text "halted"] ∧
    responseLines ⟨.execFault .memBounds, none⟩ = [text "Error: MEM_BOUNDS"] := by decide

/-- The canonical form: sorted, and writing what an unlisted byte reads as removes the entry (log 4). -/
theorem test_memory :
    Memory.write (Memory.write [] 9 1) 3 2 = [(3, 2), (9, 1)] ∧
    Memory.write (Memory.write (Memory.write [] 9 1) 3 2) 9 0 = [(3, 2)] ∧
    ¬ Memory.wf [(9, 1), (3, 2)] ∧ ¬ Memory.wf [(3, 0)] ∧ ¬ Memory.wf [(3, 1), (3, 2)] := by decide

/-- withFetchWord: `addq r1,r2` as the first instruction after reset sets Z and the pc. -/
theorem test_withFetchWord :
    ∃ t, step (State.reset.withFetchWord 88 0x2200820000000000000000) = .next t ∧ t.pc = 2 ∧
      t.Z = true ∧ codes t = [0x00] := ⟨_, rfl, by decide⟩

/-! ### Witnesses: the hypotheses of each obligation are met -/

def cfg8 : Cfg := { memCapacity := 8, startAddr := 0x1000, validMem := 8 }

def inputs8 : ResetInputs :=
  { regs := Vector.replicate 16 7, pc := 3, Z := true, S := true, mem := [1, 2, 3, 4, 5, 6, 7, 0],
    haltPcPolicy := .freezeAdvanceOnly, modqBothZeroFlags := .zOnly }

theorem witness_RstLoadsEveryResetInput : admitted cfg8 inputs8 ∧ 7 < inputs8.mem.length := by decide

/-- Each clause at its boundary: the last admitted value and the first that is not. -/
theorem witness_RstRefusesExactlyOtherConfigurations :
    ¬ admitted { cfg8 with memCapacity := 7 } inputs8 ∧
    admitted { cfg8 with startAddr := 0xFFFFFFFFFFFFFFF8 } inputs8 ∧
    ¬ admitted { cfg8 with startAddr := 0xFFFFFFFFFFFFFFF9 } inputs8 ∧
    ¬ admitted cfg8 { inputs8 with mem := [1, 2, 3, 4, 5, 6, 7] } := by decide

theorem witness_EveryRstMeetsInvariant : rst cfg8 inputs8 = .next (bootState cfg8 inputs8) :=
  if_pos witness_RstLoadsEveryResetInput.1

/-- A state with memory, registers and a request, which a store then changes. -/
def busy : State := (withQuads (regs [(1, 0x1122), (4, 0x400)]) [(0, 0x55)]).send (text "pushq r1")

theorem busy_inv : StateInv busy where
  memory_wf := by decide
  memory_in_window := by
    simp only [InWindow]
    decide
  capacity := by decide
  window_fits := by decide
  overflow_clear := rfl
  responses := by
    intro r hr
    cases hr

theorem witness_StepKeepsInvariant : StateInv busy ∧ ∃ t, step busy = .next t ∧ t.mem ≠ busy.mem :=
  ⟨busy_inv, _, rfl, by decide⟩

theorem witness_DecodeOfEncodeIsTheInstruction :
    (Instr.rmmovq 99 0xFFFFFFFFFFFFFFFF 0).wellFormed ∧ (Instr.mrmovq 0 99 15).wellFormed := by decide

theorem witness_BundleRefusedExactlyWhenUnused :
    executeBundle 0x3C00000000000000000000 State.reset = .refused .unusedBundle ∧
    executeBundle 0x16C0000000000000000000 State.reset ≠ .refused .unusedBundle :=
  ⟨rfl, fun h => nomatch h⟩

theorem witness_TableWordRunsAsTheNextStep : (Instr.divq 0 99).wellFormed := by decide

theorem witness_DecodedInstructionIsWellFormed : decode (text "pushq r99") = .ok (.pushq 99) := by decide

theorem witness_TokensSplitAtSeparators :
    (text "r1" ≠ [] ∧ ∀ c ∈ text "r1", isSep c = false) ∧ isSep 0x2C = true ∧ isSep 0x0D = true := by
  decide

theorem witness_LineWithoutTokensIsEmptyLine :
    decode (text " ,") = .error .emptyLine ∧ tokens (text " ,") = [] ∧ tokens (text "nop") ≠ [] := by decide

theorem witness_MnemonicThenOperandCount :
    (tokens (text "dump") = [text "dump"] ∧ text "dump" ∉ specCounts.map Prod.fst) ∧
    (tokens (text "nop r1") = [text "nop", text "r1"] ∧ (text "nop", 0) ∈ specCounts ∧
      [text "r1"].length ≠ 0) ∧
    (tokens (text "popq x") = [text "popq", text "x"] ∧ (text "popq", 1) ∈ specCounts ∧
      [text "x"].length = 1) := by decide

/-- For each format a line whose tokens all parse, and lines whose first and whose second token fails. -/
theorem witness_MnemonicThenOperandCount_operands :
    ((text "ret", Instr.ret) ∈ specN ∧ tokens (text "ret") = [text "ret"]) ∧
    (∀ x ∈ ["r99", "r100"], tokens (text "popq " ++ text x) = [text "popq", text x]) ∧
    (∀ x ∈ ["64", "6x"], tokens (text "jge " ++ text x) = [text "jge", text x]) ∧
    (tokens (text "cmovge r1,r2") = [text "cmovge", text "r1", text "r2"] ∧
      tokens (text "irmovq 5,rx") = [text "irmovq", text "5", text "rx"] ∧
      tokens (text "rmmovq r1,8(r2") = [text "rmmovq", text "r1", text "8(r2"] ∧
      tokens (text "mrmovq (r2),r1") = [text "mrmovq", text "(r2)", text "r1"]) ∧
    (parseReg (text "r99") = .ok 99 ∧ parseReg (text "rx") = .error .invalidRegister) ∧
    (parseImm (text "5") = .ok 5 ∧ parseImm (text "6x") = .error .invalidImmediate) ∧
    (parseDisp (text "8(r2)") = .ok (8, 2) ∧
      parseDisp (text "8(r2") = .error .invalidDisplacement ∧
      parseDisp (text "8(R2)") = .error .invalidRegister) := by decide

/-- The tables of the formats hold what they should at their ends. -/
theorem witness_MnemonicThenOperandCount_tables :
    specN.map Prod.fst = [text "nop", text "halt", text "ret"] ∧
    specR.map (fun f => (f.1, f.2 1)) = [(text "pushq", .pushq 1), (text "popq", .popq 1)] ∧
    (specI.map fun f => (f.1, f.2 9)).head? = some (text "call", .call 9) ∧
    (specRR.map fun f => (f.1, f.2 1 2)).getLast? = some (text "cmovge", .cmovge 1 2) := by decide

theorem witness_RegisterTokenGrammar : ∀ r, parseReg (text "r100") ≠ .ok r := by decide

/-- 2^64 - 1 and 2^64, and a value of 21 digits. -/
theorem witness_ImmediateTokenGrammar :
    (∀ t ∈ [text "18446744073709551615", text "18446744073709551616", text "118446744073709551616"],
      t ≠ [] ∧ ∀ c ∈ t, 0x30 ≤ c.toNat ∧ c.toNat ≤ 0x39) ∧
    digitsValue (text "18446744073709551615") = 2 ^ 64 - 1 ∧
    digitsValue (text "18446744073709551616") = 2 ^ 64 ∧
    digitsValue (text "118446744073709551616") = 10 ^ 20 + 2 ^ 64 ∧
    (2 ^ 64 ≤ 2 ^ 64 ∧ 2 ^ 64 < 10 ^ 20) ∧
    ((0x2F : Byte) ∈ text "1/2" ∧ (0x2F : Byte).toNat < 0x30) ∧
    ((0x3A : Byte) ∈ text "1:2" ∧ 0x39 < (0x3A : Byte).toNat) := by decide

/-- The shape with each of the three outcomes, and a token without it. -/
theorem witness_DisplacementTokenGrammar :
    (∀ ds ∈ [text "8", text "18446744073709551616"],
      ds ≠ [] ∧ ∀ c ∈ ds, 0x30 ≤ c.toNat ∧ c.toNat ≤ 0x39) ∧
    (∀ x ∈ [text "r2", text "R2"], ∀ c ∈ x, c ≠ 0x28 ∧ c ≠ 0x29) ∧
    2 ^ 64 ≤ digitsValue (text "18446744073709551616") ∧ digitsValue (text "8") < 2 ^ 64 ∧
    parseReg (text "R2") = .error .invalidRegister ∧ parseReg (text "r2") = .ok 2 ∧
    ¬ ∃ ds x : List Byte, ds ≠ [] ∧ (∀ c ∈ ds, 0x30 ≤ c.toNat ∧ c.toNat ≤ 0x39) ∧
      (∀ c ∈ x, c ≠ 0x28 ∧ c ≠ 0x29) ∧ ([] : Token) = ds ++ 0x28 :: (x ++ [0x29]) := by
  refine ⟨by decide, by decide, by decide, by decide, by decide, by decide, ?_⟩
  rintro ⟨ds, x, h, -, -, e⟩
  exact h (List.append_eq_nil_iff.mp e.symm).1

/-- The dump command, a decode fault and an instruction, each with a later line. -/
theorem witness_StepProcessesOneRequest :
    (∀ t ∈ [" dump ", "dumb", "pushq r99"],
      ({ State.reset with req := [text t, text "halt"] } : State).req = text t :: [text "halt"]) ∧
    tokens (text " dump ") = [chars ['d', 'u', 'm', 'p']] ∧
    (tokens (text "dumb") ≠ [chars ['d', 'u', 'm', 'p']] ∧
      decode (text "dumb") = .error .unknownMnemonic) ∧
    decode (text "pushq r99") = .ok (.pushq 99) := by decide

theorem witness_DumpShowsTheStateAndChangesNothing :
    (State.reset.send (text "dump")).req = [text "dump"] ∧
    tokens (text "dump") = [chars ['d', 'u', 'm', 'p']] := by decide

theorem witness_EachRequestHasOneResponse : busy.req = [text "pushq r1"] := by decide

theorem witness_StepNeverStops : State.reset.req = [] := rfl

theorem witness_RunServesEveryWaitingRequest :
    ((State.reset.send (text "halt")).send (text "dump")).req = [text "halt", text "dump"] := by decide

theorem witness_StatusCodesAreDistinct : Status.code (.execFault .regRange) = 0x20 := rfl

/-- A snapshot at each value of (O, S, Z). -/
theorem witness_SnapshotTextDigits :
    ∀ o s z : Bool, ∃ p : Snapshot, p.O = o ∧ p.S = s ∧ p.Z = z := fun o s z =>
  ⟨{ State.reset.snapshot with O := o, S := s, Z := z }, rfl, rfl, rfl⟩

/-- One witness for the statements over all instructions: each of the three kinds of status. -/
theorem witness_StatusesComeOnlyFromTheirInstructions :
    (∃ t, exec .nop State.reset = .next t) ∧ (∃ t, exec .halt State.reset = .next t) ∧
    ∃ t, exec (.pushq 0) State.reset = .next t ∧ codes t = [0x22] :=
  ⟨⟨_, rfl⟩, ⟨_, rfl⟩, _, rfl, by decide⟩

theorem witness_IndexAbove15ChangesNothing :
    (∃ r ∈ (Instr.cmove 3 16).regFields, 15 < r.toNat) ∧
    (∃ r ∈ (Instr.mrmovq 0 127 0).regFields, 15 < r.toNat) := by decide

theorem witness_FaultsChangeNothingButModqFlags :
    (∃ t, exec (.divq 0 0) State.reset = .next t ∧ t.rsp = [] ++ [⟨.execFault .divZero, none⟩]) ∧
    (∃ t, exec (.modq 0 0) State.reset = .next t ∧ t.rsp = [] ++ [⟨.execFault .modBothZero, none⟩]) :=
  ⟨⟨_, rfl, rfl⟩, _, rfl, rfl⟩

theorem witness_OnlyAluOperationsWriteFlags :
    isAlu (.cmovge 0 0) = false ∧ ∃ t, exec (.cmovge 0 0) State.reset = .next t := ⟨rfl, _, rfl⟩

theorem witness_OverflowFlagIsNeverSet :
    ∃ t, exec .nop { State.reset with O := true } = .next t ∧ t.O = true := ⟨_, rfl, rfl⟩

/-- Both flags set from before, and by the fault. -/
theorem witness_ZeroAndSignOnlyFromModqFault :
    (∃ t, exec .nop { State.reset with Z := true, S := true } = .next t ∧ t.Z = true ∧ t.S = true) ∧
    (∃ t, exec (.modq 1 2) { State.reset with S := true } = .next t ∧ t.Z = true ∧ t.S = true) :=
  ⟨⟨_, rfl, rfl, rfl⟩, _, rfl, rfl, rfl⟩

theorem witness_OnlyHaltSetsTheLatch : ∃ t, exec .halt State.reset = .next t ∧ t.H = true := ⟨_, rfl, rfl⟩

theorem witness_PcFrozenWhileHalted :
    let s : State := { State.reset with H := true, haltPcPolicy := .freezeAdvanceOnly }
    (∃ t, exec (.jmp 8) s = .next t ∧ s.H = true ∧ t.pc ≠ s.pc) ∧
    (∃ t, exec .ret (withQuads s [(0, 8)]) = .next t ∧ t.pc ≠ s.pc) :=
  ⟨⟨_, rfl, rfl, by decide⟩, _, rfl, by decide⟩

theorem witness_StepKeepsConfiguration : ∃ t, step busy = .next t := ⟨_, rfl⟩

theorem witness_CapacityHasNoEffect : ∃ t, exec (.popq 1) State.reset = .next t := ⟨_, rfl⟩

theorem witness_RegisterWriteFrame :
    ∃ t, exec (.popq 1) State.reset = .next t ∧ (0 : Fin 16).val ∉ writtenRegs (.popq 1) :=
  ⟨_, rfl, by decide⟩

theorem witness_UnusedRegisterIsInert :
    (2 : Fin 16).val ∉ usedRegs (.pushq 1) ∧ ∃ t, exec (.pushq 1) busy = .next t ∧ t.reg 4 = 0x3F8 :=
  ⟨by decide, _, rfl, by decide⟩

/-- A store with the bytes next to it, and an instruction that stores nothing. -/
theorem witness_MemoryWriteFrame :
    Memory.wf busy.mem ∧ storeAddress (.pushq 1) busy = some 1016 ∧
    ¬ quadAt (u64 1016) 1015 ∧ ¬ quadAt (u64 1016) 1024 ∧ quadAt (u64 1016) 1023 ∧
    (∃ t, exec (.pushq 1) busy = .next t ∧ t.mem ≠ busy.mem) ∧
    storeAddress (.popq 1) busy = none ∧ ∃ t, exec (.popq 1) busy = .next t := by
  refine ⟨by decide, by decide, ?_, ?_, ?_, ⟨_, rfl, by decide⟩, rfl, _, rfl⟩
  all_goals
    simp only [quadAt]
    decide

theorem witness_ExecIgnoresThePorts : ∃ t, exec (.call 64) busy = .next t := ⟨_, rfl⟩

/-- A field at 15 names a register, a field at 16 does not: for every statement with register operands. -/
theorem witness_register_operands :
    ((15 : RegIdx).toNat = (15 : Fin 16).val ∧ (0 : RegIdx).toNat = (0 : Fin 16).val) ∧
    15 < (16 : RegIdx).toNat ∧ (15 < (0 : RegIdx).toNat ∨ 15 < (16 : RegIdx).toNat) := by decide

theorem witness_MovesWriteTheDestination :
    15 < (16 : RegIdx).toNat ∧ (15 : RegIdx).toNat = (15 : Fin 16).val := by decide

theorem witness_AddqSubqXorqAndqResults :
    (15 < (16 : RegIdx).toNat ∨ 15 < (0 : RegIdx).toNat) ∧
    (15 : RegIdx).toNat = (15 : Fin 16).val := by decide

theorem witness_MulqKeepsTheLowProduct :
    (15 < (0 : RegIdx).toNat ∨ 15 < (127 : RegIdx).toNat) ∧
    (15 : RegIdx).toNat = (15 : Fin 16).val := by decide

/-- The guard at -2^63 / 1 and at -(2^63 - 1) / -1, and each fault. -/
theorem witness_DivqTruncatesTowardZero :
    (s64 1 ≠ 0 ∧ ¬ (s64 0x8000000000000000 = -2 ^ 63 ∧ s64 1 = -1)) ∧
    (s64 0xFFFFFFFFFFFFFFFF ≠ 0 ∧ ¬ (s64 0x8000000000000001 = -2 ^ 63 ∧ s64 0xFFFFFFFFFFFFFFFF = -1)) ∧
    s64 (State.reset.reg 1) = 0 ∧
    (s64 0x8000000000000000 = -2 ^ 63 ∧ s64 0xFFFFFFFFFFFFFFFF = -1) := by decide

theorem witness_ModqRemainderAndZeroDivisors :
    (s64 0xFFFFFFFFFFFFFFFF ≠ 0 ∧ ¬ (s64 0x8000000000000001 = -2 ^ 63 ∧ s64 0xFFFFFFFFFFFFFFFF = -1)) ∧
    (s64 ((regs [(2, 5)]).reg 1) = 0 ∧ s64 ((regs [(2, 5)]).reg 2) ≠ 0) ∧
    (s64 (State.reset.reg 1) = 0 ∧ s64 (State.reset.reg 2) = 0 ∧
      State.reset.modqBothZeroFlags = .setZKeepOthers) ∧
    ({ State.reset with modqBothZeroFlags := .zOnly } : State).modqBothZeroFlags = .zOnly ∧
    (s64 0x8000000000000000 = -2 ^ 63 ∧ s64 0xFFFFFFFFFFFFFFFF = -1) := by decide

theorem witness_ConditionalMovesFollowTheTruthTable :
    (3 : RegIdx).toNat = (3 : Fin 16).val ∧ (15 < (3 : RegIdx).toNat ∨ 15 < (16 : RegIdx).toNat) := by
  decide

/-- Taken and untaken, at Z = S = 1 for jle and jl. -/
theorem witness_JumpsFollowTheTruthTable :
    let s : State := { State.reset with Z := true, S := true }
    (s.Z, s.S) ∈ [(false, true), (true, false), (true, true)] ∧ (s.Z, s.S) ∉ [(false, true)] := by decide

/-- The last quad of the window, and one byte over; a bad index in either field. -/
theorem witness_RmmovqStoresTheQuad :
    (15 < (1 : RegIdx).toNat ∨ 15 < (16 : RegIdx).toNat) ∧
    (1016 = (u64 (State.reset.reg 0) + u64 1016) % 2 ^ 64 ∧ QuadInWindow State.reset 1016 ∧
      Memory.wf State.reset.mem) ∧
    (1017 = (u64 (State.reset.reg 0) + u64 1017) % 2 ^ 64 ∧ ¬ QuadInWindow State.reset 1017) := by
  simp only [QuadInWindow]
  decide

theorem witness_MrmovqLoadsTheQuad :
    let s : State := { regs [(0, 0xFF8)] with startAddr := 0x1000, validMem := 64 }
    (15 < (16 : RegIdx).toNat ∨ 15 < (1 : RegIdx).toNat) ∧
    (0x1000 = (u64 (s.reg 0) + u64 8) % 2 ^ 64 ∧ QuadInWindow s 0x1000) ∧
    (0xFFF = (u64 (s.reg 0) + u64 7) % 2 ^ 64 ∧ ¬ QuadInWindow s 0xFFF) := by
  simp only [QuadInWindow]
  decide

theorem witness_MemReadReturnsTheLastWrite :
    Memory.wf busy.mem ∧ (∃ t, busy.memWrite 1016 0x1122334455667788 = some t) ∧
    busy.memWrite 1017 0 = none := ⟨by decide, ⟨_, rfl⟩, rfl⟩

theorem witness_PartlyOutsideAccessFails :
    (∃ j < 8, ¬ InWindow State.reset (u64 1017 + j)) ∧
    (∀ j < 8, InWindow State.reset (u64 1016 + j)) := by
  simp only [InWindow]
  decide

/-- x[4] at 7 (guard), 8 (lowest that stores), 1032 (above the window). -/
theorem witness_PushqStoresBelowTheStackPointer :
    15 < (16 : RegIdx).toNat ∧ (4 : RegIdx).toNat = (4 : Fin 16).val ∧
    u64 ((regs [(4, 7)]).reg 4) < 8 ∧
    (8 ≤ u64 ((regs [(4, 8)]).reg 4) ∧ QuadInWindow (regs [(4, 8)]) (u64 ((regs [(4, 8)]).reg 4) - 8) ∧
      Memory.wf (regs [(4, 8)]).mem) ∧
    (8 ≤ u64 ((regs [(4, 1032)]).reg 4) ∧
      ¬ QuadInWindow (regs [(4, 1032)]) (u64 ((regs [(4, 1032)]).reg 4) - 8)) := by
  simp only [QuadInWindow]
  decide

/-- popq r4 and another register; x[4] at 1016 (the last quad) and at 1017. -/
theorem witness_PopqLoadsAtTheStackPointer :
    15 < (16 : RegIdx).toNat ∧
    ((4 : RegIdx).toNat = (4 : Fin 16).val ∧ (2 : RegIdx).toNat = (2 : Fin 16).val) ∧
    ((2 : Fin 16) ≠ 4 ∧ (4 : Fin 16) = 4) ∧
    QuadInWindow (regs [(4, 1016)]) (u64 ((regs [(4, 1016)]).reg 4)) ∧
    ¬ QuadInWindow (regs [(4, 1017)]) (u64 ((regs [(4, 1017)]).reg 4)) := by
  simp only [QuadInWindow]
  decide

/-- x[4] at 0 (guard), 7 (out of the window), 8 (lowest that stores). -/
theorem witness_CallPushesTheReturnAddress :
    u64 ((regs [(4, 0)]).reg 4) = 0 ∧
    (u64 ((regs [(4, 7)]).reg 4) ≠ 0 ∧ (7 + (2 ^ 64 - 8)) % 2 ^ 64 = 2 ^ 64 - 1 ∧
      ¬ QuadInWindow (regs [(4, 7)]) (2 ^ 64 - 1)) ∧
    (u64 ((regs [(4, 8)]).reg 4) ≠ 0 ∧ (8 + (2 ^ 64 - 8)) % 2 ^ 64 = 0 ∧
      QuadInWindow (regs [(4, 8)]) 0 ∧ Memory.wf (regs [(4, 8)]).mem) := by
  simp only [QuadInWindow]
  decide

theorem witness_RetTransfersToThePoppedQuad :
    QuadInWindow (regs [(4, 1016)]) (u64 ((regs [(4, 1016)]).reg 4)) ∧
    ¬ QuadInWindow (regs [(4, 1017)]) (u64 ((regs [(4, 1017)]).reg 4)) := by
  simp only [QuadInWindow]
  decide

/-- The hypotheses on x[4] of the two statements about a push and a pop. -/
abbrev StackTop (s : State) : Prop :=
  8 ≤ u64 (s.reg 4) ∧ u64 s.startAddr ≤ u64 (s.reg 4) - 8 ∧
    u64 (s.reg 4) ≤ u64 s.startAddr + u64 s.validMem

/-- The stack top of 70_reset_and_hazards.md R143 at both ends: 8 and 1024. -/
theorem witness_CallThenRetComesBack :
    (Memory.wf (regs [(4, 8)]).mem ∧ (regs [(4, 8)]).H = false ∧ StackTop (regs [(4, 8)])) ∧
    StackTop (regs [(4, 1024)]) := ⟨⟨by decide, rfl, by decide, by decide, by decide⟩, by decide, by decide, by decide⟩

theorem witness_PushThenPopMovesTheRegister :
    (4 : RegIdx).toNat = (4 : Fin 16).val ∧ (15 : RegIdx).toNat = (15 : Fin 16).val ∧ (15 : Fin 16) ≠ 4 ∧
    (Memory.wf (regs [(4, 8)]).mem ∧ StackTop (regs [(4, 8)])) ∧ StackTop (regs [(4, 1024)]) :=
  ⟨by decide, by decide, by decide, ⟨by decide, by decide, by decide, by decide⟩, by decide, by decide, by decide⟩

/-- x[4] at 1 and 7; VALID_MEM at 7. -/
theorem witness_LowStackPointerOrTinyWindowFails :
    (StateInv (busy.setReg 4 1) ∧ 1 ≤ u64 ((busy.setReg 4 1).reg 4) ∧ u64 ((busy.setReg 4 1).reg 4) ≤ 7) ∧
    (StateInv (busy.setReg 4 7) ∧ 1 ≤ u64 ((busy.setReg 4 7).reg 4) ∧ u64 ((busy.setReg 4 7).reg 4) ≤ 7) ∧
    u64 ({ State.reset with validMem := 7 } : State).validMem < 8 := by
  have h : ∀ v, StateInv (busy.setReg 4 v) := fun v =>
    ⟨busy_inv.memory_wf, busy_inv.memory_in_window, busy_inv.capacity, busy_inv.window_fits,
      busy_inv.overflow_clear, busy_inv.responses⟩
  exact ⟨⟨h 1, by decide, by decide⟩, ⟨h 7, by decide, by decide⟩, by decide⟩

end Sys2Proof.Tests
end

section
/-! The statements of 00_scope.md about one request: what a step does with the oldest line (R15), and that it
ends with exactly one response (R14). -/

namespace Sys2Proof.Machine

variable {s t : State}

/-! ### Every instruction ends in a next state (00_scope.md R21) -/

theorem withReg_completes {r : RegIdx} {k : Fin 16 → Result} (h : ∀ i, ∃ t, k i = .next t) :
    ∃ t, withReg r s k = .next t := by
  rcases regOf_cases r with ⟨i, hi, -⟩ | ⟨hr, -⟩
  · rw [withReg_of_eq hi]
    exact h i
  · exact ⟨_, withReg_of_gt hr k⟩

theorem withRegs_completes {ra rb : RegIdx} {k : Fin 16 → Fin 16 → Result}
    (h : ∀ a b, ∃ t, k a b = .next t) : ∃ t, withRegs ra rb s k = .next t :=
  withReg_completes fun a => withReg_completes (h a)

theorem storeThen_completes {addr v : Word} {k : State → Result} (h : ∀ s', ∃ t, k s' = .next t) :
    ∃ t, storeThen s addr v k = .next t := by
  unfold storeThen
  split
  · exact h _
  · exact ⟨_, raise_eq _⟩

theorem loadThen_completes {addr : Word} {k : Word → Result} (h : ∀ v, ∃ t, k v = .next t) :
    ∃ t, loadThen s addr k = .next t := by
  unfold loadThen
  split
  · exact h _
  · exact ⟨_, raise_eq _⟩

theorem execDivq_completes (ra rb : RegIdx) (s : State) : ∃ t, execDivq ra rb s = .next t := by
  refine withRegs_completes fun a b => ?_
  split
  · exact ⟨_, raise_eq _⟩
  · split
    · exact ⟨_, raise_eq _⟩
    · exact ⟨_, succeed_eq⟩

theorem execModq_completes (ra rb : RegIdx) (s : State) : ∃ t, execModq ra rb s = .next t := by
  refine withRegs_completes fun a b => ?_
  split
  · split
    · exact ⟨_, raise_eq _⟩
    · exact ⟨_, succeed_eq⟩
  · split
    · exact ⟨_, raise_eq _⟩
    · exact ⟨_, succeed_eq⟩

theorem execPushq_completes (ra : RegIdx) (s : State) : ∃ t, execPushq ra s = .next t := by
  refine withReg_completes fun a => ?_
  split
  · exact ⟨_, raise_eq _⟩
  · exact storeThen_completes fun _ => ⟨_, succeed_eq⟩

theorem execCall_completes (target : Word) (s : State) : ∃ t, execCall target s = .next t := by
  unfold execCall
  split
  · exact ⟨_, raise_eq _⟩
  · exact storeThen_completes fun _ => ⟨_, succeed_eq⟩

/-- No instruction stops the block: with a fault or without, it ends in a next state (00_scope.md R21). -/
theorem exec_completes (i : Instr) (s : State) : ∃ t, exec i s = .next t := by
  cases i with
  | nop | halt | jmp | je | jne | jl | jle | jg | jge => exact ⟨_, rfl⟩
  | irmovq => exact withReg_completes fun _ => ⟨_, succeed_eq⟩
  | rrmovq | addq | subq | mulq | andq | xorq | cmove | cmovne | cmovl | cmovle | cmovg | cmovge =>
    exact withRegs_completes fun _ _ => ⟨_, succeed_eq⟩
  | rmmovq => exact withRegs_completes fun _ _ => storeThen_completes fun _ => ⟨_, succeed_eq⟩
  | mrmovq => exact withRegs_completes fun _ _ => loadThen_completes fun _ => ⟨_, succeed_eq⟩
  | pushq ra => exact execPushq_completes ra s
  | popq => exact withReg_completes fun _ => loadThen_completes fun _ => ⟨_, succeed_eq⟩
  | call target => exact execCall_completes target s
  | ret => exact loadThen_completes fun _ => ⟨_, succeed_eq⟩
  | divq ra rb => exact execDivq_completes ra rb s
  | modq ra rb => exact execModq_completes ra rb s

/-! ### The ports -/

@[simp] theorem popStack_req : (popStack s).req = s.req := rfl

@[simp] theorem popStack_rsp : (popStack s).rsp = s.rsp := rfl

/-- t waits for the lines s waits for, and has one response more. -/
def AnswersOnce (s t : State) : Prop := t.req = s.req ∧ ∃ r, t.rsp = s.rsp ++ [r]

theorem respond_answersOnce {u : State} (st : Status) (hq : u.req = s.req) (hr : u.rsp = s.rsp) :
    AnswersOnce s (u.respond st) :=
  ⟨hq, ⟨st, none⟩, by rw [respond_rsp, hr]⟩

theorem respondDump_answersOnce : AnswersOnce s s.respondDump := ⟨rfl, _, respondDump_rsp s⟩

/-- Each shape of an instruction's next state is a response put after a state with the ports of s. -/
theorem Effect.answersOnce {i : Instr} (h : Effect i s t) : AnswersOnce s t := by
  cases h <;> exact respond_answersOnce _ (by simp) (by simp)

/-! ### One request (00_scope.md R15) -/

theorem step_of_waiting {line : Line} {later : List Line} (h : s.req = line :: later) :
    step s = transact { s with req := later } line := by
  simp only [step, nextRequest, h]

theorem transact_of_dump {line : Line} (h : isDump line = true) :
    transact s line = .next s.respondDump := by
  rw [transact, if_pos h]

theorem transact_of_decode_error {line : Line} {k : DecodeFault} (hd : ¬ isDump line = true)
    (h : decode line = .error k) : transact s line = .next (s.respond (.decodeFault k)) := by
  rw [transact, if_neg hd, h]

/-- The dump command's one token is no mnemonic, so the line is no instruction (60_exceptions.md R135). -/
theorem decode_of_dump {line : Line} (h : isDump line = true) :
    decode line = .error .unknownMnemonic := by
  simp only [decode, (isDump_iff line).mp h, findMnemonic_dump]

theorem transact_of_decode_ok {line : Line} {i : Instr} (h : decode line = .ok i) :
    transact s line = exec i s := by
  have hd : ¬ isDump line = true := by
    intro hd
    rw [decode_of_dump hd] at h
    cases h
  rw [transact, if_neg hd, h]

theorem transact_completes (s : State) (line : Line) : ∃ t, transact s line = .next t := by
  by_cases hd : isDump line = true
  · exact ⟨_, transact_of_dump hd⟩
  · cases h : decode line with
    | error k => exact ⟨_, transact_of_decode_error hd h⟩
    | ok i =>
      rw [transact_of_decode_ok h]
      exact exec_completes i s

/-- A step that takes a line answers it once. -/
theorem step_answersOnce {line : Line} {later : List Line} (hs : s.req = line :: later)
    (h : step s = .next t) : AnswersOnce { s with req := later } t := by
  rcases step_cases h with ⟨hnil, -⟩ | ⟨line', later', hcons, hcase⟩
  · rw [hs] at hnil
    cases hnil
  · obtain ⟨rfl, rfl⟩ : line = line' ∧ later = later' := List.cons.inj (hs.symm.trans hcons)
    rcases hcase with ⟨-, rfl⟩ | ⟨k, -, rfl⟩ | ⟨i, -, hi⟩
    · exact respondDump_answersOnce
    · exact respond_answersOnce _ rfl rfl
    · exact (effect_of_exec hi).answersOnce

/-- Settles O21: the line at the head is processed to the end, and each way a request can end puts one
response after the earlier ones. -/
theorem eachRequestHasOneResponse : Obligations.EachRequestHasOneResponse := by
  intro s line later hs
  obtain ⟨t, ht⟩ := transact_completes { s with req := later } line
  have hstep : step s = .next t := (step_of_waiting hs).trans ht
  obtain ⟨hreq, r, hrsp⟩ := step_answersOnce hs hstep
  exact ⟨t, r, hstep, hreq, hrsp⟩

/-- Settles O19: the three ways a line is processed, each by the rule for transact. -/
theorem stepProcessesOneRequest : Obligations.StepProcessesOneRequest := by
  intro s line later hs
  rw [step_of_waiting hs]
  refine ⟨fun ht => ?dump, fun ht k hk => ?decodeFault, fun i hi => ?instruction⟩
  case dump => exact transact_of_dump ((isDump_iff line).mpr ht)
  case decodeFault => exact transact_of_decode_error (fun hd => ht ((isDump_iff line).mp hd)) hk
  case instruction => exact transact_of_decode_ok hi

end Sys2Proof.Machine
end

section
/-! The statement of 10_state.md about register indices above 15 (R24). -/

namespace Sys2Proof.Machine

variable {i : Instr} {s : State}

/-! ### An instruction that opens with regcheck (40_execute_common.md R80) -/

theorem faults_of_withReg {r : RegIdx} {k : Fin 16 → Result} (hi : exec i s = withReg r s k)
    (h : 15 < r.toNat) : Faults i s .regRange := by
  rw [Faults, hi, withReg_of_gt h]
  rfl

theorem faults_of_withRegs {ra rb : RegIdx} {k : Fin 16 → Fin 16 → Result}
    (hi : exec i s = withRegs ra rb s k) (h : 15 < ra.toNat ∨ 15 < rb.toNat) :
    Faults i s .regRange := by
  rw [Faults, hi, withRegs_of_gt h]
  rfl

/-- Settles O27: an instruction with register fields is regcheck of all of them and then its handler, which
an index above 15 never reaches; the other instructions have no field to be out of range. -/
theorem indexAbove15ChangesNothing : Obligations.IndexAbove15ChangesNothing := by
  intro i s hfield
  cases i with
  | nop | halt | ret | call | jmp | je | jne | jl | jle | jg | jge =>
    obtain ⟨r, hmem, -⟩ := hfield
    cases hmem
  | irmovq _ r | pushq r | popq r =>
    have hr : 15 < r.toNat := by simpa [Instr.regFields] using hfield
    exact faults_of_withReg rfl hr
  | rrmovq ra rb | rmmovq ra _ rb | addq ra rb | subq ra rb | mulq ra rb | modq ra rb | divq ra rb
  | andq ra rb | xorq ra rb | cmove ra rb | cmovne ra rb | cmovl ra rb | cmovle ra rb | cmovg ra rb
  | cmovge ra rb =>
    have hpair : 15 < ra.toNat ∨ 15 < rb.toNat := by simpa [Instr.regFields] using hfield
    exact faults_of_withRegs rfl hpair
  | mrmovq _ rb ra =>
    have hpair : 15 < rb.toNat ∨ 15 < ra.toNat := by simpa [Instr.regFields] using hfield
    exact faults_of_withRegs rfl hpair.symm

end Sys2Proof.Machine
end

section
/-! The statement of 20_memory.md about accesses that lie partly outside the window (R49). -/

namespace Sys2Proof.Machine

variable {s : State} {a : Word}

/-- The bounds check compares exact integers (20_memory.md R46), so the first and the last byte of the quad
decide for the bytes between them. -/
theorem inBounds_iff_bytes_inWindow : s.inBounds a ↔ ∀ j < 8, InWindow s (u64 a + j) := by
  constructor
  · rintro ⟨hlow, hhigh⟩ j hj
    exact ⟨by omega, by omega⟩
  · intro hall
    obtain ⟨hfirst, -⟩ := hall 0 (by omega)
    obtain ⟨-, hlast⟩ := hall 7 (by omega)
    exact ⟨by omega, by omega⟩

theorem not_inBounds_of_byte_outside {j : Nat} (hj : j < 8) (hout : ¬ InWindow s (u64 a + j)) :
    ¬ s.inBounds a := fun hb => hout (inBounds_iff_bytes_inWindow.mp hb j hj)

/-- Settles O53: MemRead and MemWrite turn on the bounds check alone, and the check holds exactly when all
eight bytes lie in the window. -/
theorem partlyOutsideAccessFails : Obligations.PartlyOutsideAccessFails := by
  intro s a v
  refine ⟨?outside, ?inside⟩
  case outside =>
    rintro ⟨j, hj, hout⟩
    have hb : ¬ s.inBounds a := not_inBounds_of_byte_outside hj hout
    exact ⟨memRead_of_not hb, memWrite_of_not hb⟩
  case inside =>
    intro hall
    have hb : s.inBounds a := inBounds_iff_bytes_inWindow.mpr hall
    exact ⟨⟨_, memRead_of_inBounds hb⟩, _, memWrite_of_inBounds hb⟩

end Sys2Proof.Machine
end

section
/-! The statement of 30_encoding.md about the line with no tokens (R65). -/

namespace Sys2Proof

/-! ### The faults of the operand tokens (30_encoding.md R67 to R69) -/

/-- Every fault of a parser is one of those that R67 to R69 give a malformed operand token. -/
def OnlyOperandFaults {α : Type} (p : Except DecodeFault α) : Prop :=
  ∀ k, p = .error k → k ∈ [DecodeFault.invalidRegister, .invalidImmediate, .invalidDisplacement]

variable {α β : Type} {p : Except DecodeFault α}

theorem onlyOperandFaults_ok (a : α) : OnlyOperandFaults (.ok a) := nofun

theorem onlyOperandFaults_error {k : DecodeFault}
    (h : k ∈ [DecodeFault.invalidRegister, .invalidImmediate, .invalidDisplacement]) :
    OnlyOperandFaults (α := α) (.error k) := by
  rintro _ ⟨⟩
  exact h

/-- Operands parsed one after the other fault only as their tokens do. -/
theorem OnlyOperandFaults.bind {f : α → Except DecodeFault β} (hp : OnlyOperandFaults p)
    (hf : ∀ a, OnlyOperandFaults (f a)) : OnlyOperandFaults (p >>= f) := by
  cases p with
  | error k => exact onlyOperandFaults_error (hp k rfl)
  | ok a => exact hf a

theorem OnlyOperandFaults.bind_ok {f : α → β} (hp : OnlyOperandFaults p) :
    OnlyOperandFaults (p >>= fun a => .ok (f a)) :=
  hp.bind fun a => onlyOperandFaults_ok (f a)

theorem parseReg_onlyOperandFaults (t : Token) : OnlyOperandFaults (parseReg t) := by
  unfold parseReg
  split
  · exact onlyOperandFaults_error (by decide)
  · split
    · exact onlyOperandFaults_ok _
    · exact onlyOperandFaults_error (by decide)

theorem parseImm_onlyOperandFaults (t : Token) : OnlyOperandFaults (parseImm t) := by
  unfold parseImm
  split
  · exact onlyOperandFaults_ok _
  · exact onlyOperandFaults_error (by decide)

theorem parseDisp_onlyOperandFaults (t : Token) : OnlyOperandFaults (parseDisp t) := by
  unfold parseDisp
  split
  · exact onlyOperandFaults_error (by decide)
  · split
    · exact (parseReg_onlyOperandFaults _).bind_ok
    · exact onlyOperandFaults_error (by decide)

/-- With as many tokens as the format has operands, the last arm of `parseOperands` is not reached. -/
theorem parseOperands_onlyOperandFaults {f : Form} {ts : List Token}
    (hc : ts.length = operandCount f) : OnlyOperandFaults (parseOperands f ts) := by
  cases f with
  | N i =>
    obtain rfl := List.length_eq_zero_iff.mp hc
    exact onlyOperandFaults_ok i
  | R mk =>
    obtain ⟨a, rfl⟩ := List.length_eq_one_iff.mp hc
    exact (parseReg_onlyOperandFaults a).bind_ok
  | I mk =>
    obtain ⟨v, rfl⟩ := List.length_eq_one_iff.mp hc
    exact (parseImm_onlyOperandFaults v).bind_ok
  | RR mk =>
    obtain ⟨a, b, rfl⟩ := List.length_eq_two.mp hc
    exact (parseReg_onlyOperandFaults a).bind fun _ => (parseReg_onlyOperandFaults b).bind_ok
  | IR mk =>
    obtain ⟨v, b, rfl⟩ := List.length_eq_two.mp hc
    exact (parseImm_onlyOperandFaults v).bind fun _ => (parseReg_onlyOperandFaults b).bind_ok
  | RM mk =>
    obtain ⟨a, m, rfl⟩ := List.length_eq_two.mp hc
    exact (parseReg_onlyOperandFaults a).bind fun _ => (parseDisp_onlyOperandFaults m).bind_ok
  | MR mk =>
    obtain ⟨m, a, rfl⟩ := List.length_eq_two.mp hc
    exact (parseDisp_onlyOperandFaults m).bind fun _ => (parseReg_onlyOperandFaults a).bind_ok

/-! ### The decode steps in the order of 30_encoding.md R62 -/

variable {line : Line} {m : Token} {args : List Token}

theorem decode_of_no_tokens (ht : tokens line = []) : decode line = .error .emptyLine := by
  simp only [decode, ht]

theorem decode_of_unknown (ht : tokens line = m :: args) (hf : findMnemonic m = none) :
    decode line = .error .unknownMnemonic := by
  simp only [decode, ht, hf]

theorem decode_of_count_ne {row : Row} (ht : tokens line = m :: args)
    (hf : findMnemonic m = some row) (hc : args.length ≠ operandCount row.form) :
    decode line = .error .operandCount := by
  simp only [decode, ht, hf, if_neg hc]

/-- Past the first step no later step reports EMPTY_LINE. -/
theorem decode_ne_emptyLine (ht : tokens line = m :: args) : decode line ≠ .error .emptyLine := by
  cases hf : findMnemonic m with
  | none => simp [decode_of_unknown ht hf]
  | some row =>
    by_cases hc : args.length = operandCount row.form
    · rw [decode_of_count ht hf hc]
      intro he
      exact absurd (parseOperands_onlyOperandFaults hc _ he) (by decide)
    · simp [decode_of_count_ne ht hf hc]

end Sys2Proof

namespace Sys2Proof.Machine

/-- Settles O14: the first decode step is the one that reports EMPTY_LINE, and it is passed exactly by a line
that has a first token. -/
theorem lineWithoutTokensIsEmptyLine : Obligations.LineWithoutTokensIsEmptyLine := by
  intro line
  refine ⟨fun he => ?_, decode_of_no_tokens⟩
  cases ht : tokens line with
  | nil => rfl
  | cons m args => exact absurd he (decode_ne_emptyLine ht)

end Sys2Proof.Machine
end

section
/-! The statement of 40_execute_common.md about the instructions that write no flag (R84). -/

namespace Sys2Proof.Machine

variable {i : Instr} {s t : State}

/-- Of the shapes of a next state, only an ALU result and the MOD_BOTH_ZERO fault write flags, and both
belong to ALU operations; the others are made of operations that leave Z, S and O alone. -/
theorem Effect.keepsFlags (h : Effect i s t) (hi : isAlu i = false) : KeepsFlags s t := by
  cases h with
  | alu _ _ halu => exact absurd (hi.symm.trans halu) Bool.false_ne_true
  | modBothZero _ _ hmodq =>
    subst hmodq
    exact absurd hi.symm Bool.false_ne_true
  | fault | move | advance | halt | transfer | store | push | call | pop | ret =>
    exact ⟨rfl, rfl, rfl⟩

/-- Settles O29: each next state of an instruction has one of the shapes of `Effect`, and those of an
instruction that is no ALU operation keep the flags. -/
theorem onlyAluOperationsWriteFlags : Obligations.OnlyAluOperationsWriteFlags :=
  fun _ _ _ hi h => (effect_of_exec h).keepsFlags hi

end Sys2Proof.Machine
end

section
/-! The statement of 41_nop_halt.md about nop (R88). -/

namespace Sys2Proof.Machine

variable {s : State}

theorem exec_nop : exec .nop s = .next ((s.advance 1).respond .ok) := rfl

/-- An advance writes the pc alone, so a request that ends with it keeps latch, configuration and waiting
requests. -/
theorem advance_respond_answersOk (n : Nat) : AnswersOk s ((s.advance n).respond .ok) :=
  ⟨rfl, ⟨rfl, rfl, rfl, rfl, rfl⟩, rfl, rfl⟩

/-- Format N takes no operand token (30_encoding.md R62). -/
theorem decode_nop_with_operands {line : Line} {arg : Token} {args : List Token}
    (ht : tokens line = chars ['n', 'o', 'p'] :: arg :: args) : decode line = .error .operandCount := by
  have hrow : findMnemonic (chars ['n', 'o', 'p']) = some ⟨chars ['n', 'o', 'p'], 0, 0, .N .nop⟩ :=
    rfl
  exact decode_of_count_ne ht hrow (Nat.succ_ne_zero _)

/-- Settles O41: nop is advance(1) and then the response OK, and neither writes anything but the pc and the
responses; `nop r1` has one operand token too many. -/
theorem nopAdvancesByOne : Obligations.NopAdvancesByOne := by
  refine ⟨fun s => ⟨_, exec_nop, ?pc, ?regs, ?flags, ?bytes, ?response⟩, ?operand⟩
  case pc => exact pcAdvances_of_pc (respond_pc _ .ok)
  case regs => exact fun r _ => (respond_reg _ .ok r).trans (advance_reg s 1 r)
  case flags => exact ⟨rfl, rfl, rfl⟩
  case bytes => exact fun _ _ => rfl
  case response => exact advance_respond_answersOk 1
  case operand =>
    have ht : tokens (chars ['n', 'o', 'p', ' ', 'r', '1']) =
        [chars ['n', 'o', 'p'], chars ['r', '1']] := by decide
    exact decode_nop_with_operands ht

end Sys2Proof.Machine
end

section
/-! The statement of 42_moves.md about irmovq and rrmovq (R90, R91). -/

namespace Sys2Proof.Machine

variable {s : State}

theorem exec_irmovq_of_eq {rb : RegIdx} {b : Fin 16} (hb : rb.toNat = b.val) (v : Word) :
    exec (.irmovq v rb) s = .next (((s.setReg b v).advance 10).respond .ok) :=
  withReg_of_eq hb _

theorem exec_rrmovq_of_eq {ra rb : RegIdx} {a b : Fin 16} (ha : ra.toNat = a.val)
    (hb : rb.toNat = b.val) :
    exec (.rrmovq ra rb) s = .next (((s.setReg b (s.reg a)).advance 2).respond .ok) :=
  withRegs_of_eq ha hb _

/-- What irmovq and rrmovq share: after the register write, the advance and the response OK, register b
holds v, the pc has advanced, and nothing else has changed. -/
theorem setReg_advance_respond_claims (s : State) (b : Fin 16) (v : Word) (n : Nat) :
    let t := ((s.setReg b v).advance n).respond .ok
    t.reg b = v ∧ PcAdvances s t n ∧ KeepsRegs s t [b] ∧ KeepsFlags s t ∧ KeepsBytes s t noByte ∧
      AnswersOk s t := by
  refine ⟨?value, ?pc, ?regs, ?flags, ?bytes, ?response⟩
  case value => simp
  case pc => exact pcAdvances_of_pc rfl
  case regs => exact keepsRegs_of_set (v := v) rfl
  case flags => exact ⟨rfl, rfl, rfl⟩
  case bytes => exact fun _ _ => rfl
  case response => exact advance_respond_answersOk (s := s.setReg b v) n

/-- Settles O43: past regcheck each move is one register write, an advance and the response OK; an index
above 15 does not get past regcheck. The source is read before the write, so rA = rB needs no case. -/
theorem movesWriteTheDestination : Obligations.MovesWriteTheDestination := by
  refine ⟨?irmovqFaults, ?irmovq, ?rrmovqFaults, ?rrmovq⟩
  case irmovqFaults => exact fun _ _ _ hb => faults_of_withReg rfl hb
  case irmovq =>
    intro s v rb b hb
    exact ⟨_, exec_irmovq_of_eq hb v, setReg_advance_respond_claims s b v 10⟩
  case rrmovqFaults => exact fun _ _ _ hpair => faults_of_withRegs rfl hpair
  case rrmovq =>
    intro s ra rb a b ha hb
    exact ⟨_, exec_rrmovq_of_eq ha hb, setReg_advance_respond_claims s b (s.reg a) 2⟩

end Sys2Proof.Machine
end

section
/-! The statement of 43_alu.md about addq, subq, xorq and andq (R93, R94, R96, R97). -/

namespace Sys2Proof

/-- `to64` takes the residue modulo 2^64 (00_scope.md R19). -/
theorem u64_to64 (n : Int) : (u64 (to64 n) : Int) = n % 2 ^ 64 := by
  rw [u64, to64, BitVec.toNat_ofInt]
  exact Int.toNat_of_nonneg (Int.emod_nonneg n (by decide))

end Sys2Proof

namespace Sys2Proof.Machine

variable {mk : RegIdx → RegIdx → Instr} {f : Word → Word → Word}

/-- The end of a successful ALU operation: register b holds r, the flags come from r, the pc has advanced
by 2, and nothing else has changed (43_alu.md, 40_execute_common.md R83). -/
theorem aluResult_claims (s : State) (b : Fin 16) (r : Word) :
    ∃ t, aluResult b r s = .next t ∧ t.reg b = r ∧ FlagsFrom t r ∧ PcAdvances s t 2 ∧
      KeepsRegs s t [b] ∧ KeepsBytes s t noByte ∧ AnswersOk s t := by
  refine ⟨_, succeed_eq, ?value, flagsFrom_aluResult b r, ?pc, ?regs, ?bytes, ?response⟩
  case value => simp
  case pc => exact pcAdvances_of_pc rfl
  case regs => exact keepsRegs_of_set (v := r) rfl
  case bytes => exact fun _ _ => rfl
  case response => exact advance_respond_answersOk (s := (s.setReg b r).setFlags r) 2

/-- An instruction that writes the ALU result f B A wherever the guard admits B and A completes there, with
the value that f has. -/
theorem aluCompletes_of_aluResult {guard : Word → Word → Prop} {value : Word → Word → Word → Prop}
    (hexec : ∀ (s : State) (ra rb : RegIdx) (a b : Fin 16), ra.toNat = a.val → rb.toNat = b.val →
      guard (s.reg b) (s.reg a) → exec (mk ra rb) s = aluResult b (f (s.reg b) (s.reg a)) s)
    (hvalue : ∀ B A, guard B A → value B A (f B A)) : AluCompletes mk guard value := by
  intro s ra rb a b ha hb hguard
  obtain ⟨t, ht, hreg, hflags, hframe⟩ := aluResult_claims s b (f (s.reg b) (s.reg a))
  refine ⟨t, (hexec s ra rb a b ha hb hguard).trans ht, ?_, ?_, hframe⟩
  · rw [hreg]
    exact hvalue _ _ hguard
  · rw [hreg]
    exact hflags

/-- An operation without a fault of its own completes on every pair of registers. -/
theorem aluCompletes_of_aluOp {value : Word → Word → Word → Prop}
    (hexec : ∀ ra rb s, exec (mk ra rb) s = aluOp f ra rb s) (hvalue : ∀ B A, value B A (f B A)) :
    AluCompletes mk (fun _ _ => True) value :=
  aluCompletes_of_aluResult
    (fun s ra rb _ _ ha hb _ => (hexec ra rb s).trans (withRegs_of_eq ha hb _))
    (fun B A _ => hvalue B A)

/-- Its only fault is regcheck's (40_execute_common.md R80). -/
theorem pairRangeFaults_of_aluOp (hexec : ∀ ra rb s, exec (mk ra rb) s = aluOp f ra rb s) :
    PairRangeFaults mk :=
  fun s ra rb hpair => faults_of_withRegs (hexec ra rb s) hpair

theorem exec_addq (ra rb : RegIdx) (s : State) :
    exec (.addq ra rb) s = aluOp (fun B A => to64 (u64 B + u64 A)) ra rb s := rfl

theorem exec_subq (ra rb : RegIdx) (s : State) :
    exec (.subq ra rb) s = aluOp (fun B A => to64 (u64 B - u64 A)) ra rb s := rfl

theorem exec_xorq (ra rb : RegIdx) (s : State) :
    exec (.xorq ra rb) s = aluOp (fun B A => B ^^^ A) ra rb s := rfl

theorem exec_andq (ra rb : RegIdx) (s : State) :
    exec (.andq ra rb) s = aluOp (fun B A => B &&& A) ra rb s := rfl

/-- Settles O44: each of the four is regcheck and then one ALU result, so what is left is the value of its
function of B and A: `to64` reduces sum and difference modulo 2^64, and the other two work bit by bit. -/
theorem addqSubqXorqAndqResults : Obligations.AddqSubqXorqAndqResults := by
  refine ⟨pairRangeFaults_of_aluOp exec_addq, pairRangeFaults_of_aluOp exec_subq,
    pairRangeFaults_of_aluOp exec_xorq, pairRangeFaults_of_aluOp exec_andq,
    aluCompletes_of_aluOp exec_addq ?sum, aluCompletes_of_aluOp exec_subq ?difference,
    aluCompletes_of_aluOp exec_xorq ?xor, aluCompletes_of_aluOp exec_andq ?and⟩
  case sum => exact fun B A => u64_to64_add (u64 B) (u64 A)
  case difference => exact fun B A => u64_to64 (u64 B - u64 A)
  case xor => exact fun _ _ _ _ => BitVec.getLsbD_xor
  case and => exact fun _ _ _ _ => BitVec.getLsbD_and

end Sys2Proof.Machine
end

section
/-! The statement of 60_exceptions.md about the dump command (R135). -/

namespace Sys2Proof.Machine

variable (s : State)

/-! ### What a snapshot shows, field by field -/

theorem snapshot_reg (i : Fin 16) : s.snapshot.x[i] = s.reg i := rfl

@[simp] theorem snapshot_O : s.snapshot.O = s.O := rfl
@[simp] theorem snapshot_S : s.snapshot.S = s.S := rfl
@[simp] theorem snapshot_Z : s.snapshot.Z = s.Z := rfl
@[simp] theorem snapshot_pc : s.snapshot.pc = s.pc := rfl
@[simp] theorem snapshot_startAddr : s.snapshot.startAddr = s.startAddr := rfl
@[simp] theorem snapshot_validMem : s.snapshot.validMem = s.validMem := rfl

/-- A snapshot reads none of the fields that `dump` hides: H, MEM_CAPACITY and memory. -/
theorem snapshot_of_hidden_changed (h : Bool) (c : Nat) (m : Memory) :
    ({ s with H := h, memCapacity := c, mem := m } : State).snapshot = s.snapshot := rfl

/-- Settles O20: a dump line is answered with the snapshot of the state it finds, by the dump case of O19,
and each shown field of a snapshot is the state's. -/
theorem dumpShowsTheStateAndChangesNothing : Obligations.DumpShowsTheStateAndChangesNothing := by
  refine ⟨fun s line later hs hline => ?answer, snapshot_of_hidden_changed⟩
  case answer =>
    obtain ⟨hdump, -, -⟩ := stepProcessesOneRequest s line later hs
    exact ⟨s.snapshot, hdump hline, snapshot_reg s, snapshot_O s, snapshot_S s, snapshot_Z s,
      snapshot_pc s, snapshot_startAddr s, snapshot_validMem s⟩

end Sys2Proof.Machine
end

section
/-! What an instruction and a step can change, field by field, and the invariant they keep (10_state.md,
20_memory.md R44, R52; 40_execute_common.md R79, R82, R87). -/

namespace Sys2Proof.Machine

variable {i : Instr} {s t : State}

/-! ### The flag write of MOD_BOTH_ZERO (43_alu.md R99) -/

theorem overflow_of_setBothZeroFlags (h : s.setBothZeroFlags.O = true) : s.O = true := by
  cases hp : s.modqBothZeroFlags with
  | setZKeepOthers => simpa [setBothZeroFlags_keep hp] using h
  | zOnly => simp [setBothZeroFlags_only hp] at h

theorem sign_of_setBothZeroFlags (h : s.setBothZeroFlags.S = true) :
    s.S = true ∧ s.modqBothZeroFlags = .setZKeepOthers := by
  cases hp : s.modqBothZeroFlags with
  | setZKeepOthers => exact ⟨by simpa [setBothZeroFlags_keep hp] using h, rfl⟩
  | zOnly => simp [setBothZeroFlags_only hp] at h

/-- It writes flags and nothing else. -/
theorem setBothZeroFlags_eq_flags (s : State) :
    s.setBothZeroFlags = { s with
      Z := s.setBothZeroFlags.Z, S := s.setBothZeroFlags.S, O := s.setBothZeroFlags.O } := by
  unfold State.setBothZeroFlags
  split <;> rfl

/-! ### Each field of an instruction's next state -/

/-- The registers are not in memory. -/
@[simp] theorem withMem_reg (s : State) (m : Memory) (r : Fin 16) :
    ({ s with mem := m } : State).reg r = s.reg r := rfl

theorem Effect.keepsConfig (h : Effect i s t) : KeepsConfig s t := by
  cases h with
  | modBothZero => simp [KeepsConfig]
  | fault | alu | move | advance | halt | transfer | store | push | call | pop | ret =>
    exact ⟨rfl, rfl, rfl, rfl, rfl⟩

/-- An ALU result clears O, MOD_BOTH_ZERO clears it or leaves it, and nothing else writes it. -/
theorem Effect.overflow (h : Effect i s t) (hO : t.O = true) : s.O = true := by
  cases h with
  | alu => exact absurd hO Bool.false_ne_true
  | modBothZero => exact overflow_of_setBothZeroFlags hO
  | fault | move | advance | halt | transfer | store | push | call | pop | ret => exact hO

/-- The one response has a status other than DUMP, and no snapshot. -/
theorem Effect.response (h : Effect i s t) :
    ∃ st, st ≠ Status.dump ∧ t.rsp = s.rsp ++ [⟨st, none⟩] := by
  cases h with
  | fault k => exact ⟨.execFault k, nofun, rfl⟩
  | modBothZero => exact ⟨.execFault .modBothZero, nofun, by simp⟩
  | halt => exact ⟨.halted, nofun, rfl⟩
  | alu | move | advance | transfer | store | push | call | pop | ret => exact ⟨.ok, nofun, rfl⟩

/-- Memory stays, or one quad is written inside the window, at the instruction's store address. -/
theorem Effect.memory (h : Effect i s t) :
    t.mem = s.mem ∨ ∃ a v, storeAddress i s = some a ∧ s.inBounds a ∧
      t.mem = s.mem.writeBytes (u64 a) (quadBytes v) := by
  cases h with
  | store a v ha hb => exact .inr ⟨a, v, ha, hb, rfl⟩
  | push v ha _ hb => exact .inr ⟨_, v, ha, hb, rfl⟩
  | call v _ hi hb => exact .inr ⟨_, v, by rw [hi]; rfl, hb, rfl⟩
  | modBothZero => exact .inl (setBothZeroFlags_mem s)
  | fault | alu | move | advance | halt | transfer | pop | ret => exact .inl rfl

/-- A register write goes to a register that the instruction's row lists (10_state.md R26). -/
theorem Effect.keepsRegs (h : Effect i s t) {r : Fin 16} (hr : r.val ∉ writtenRegs i) :
    t.reg r = s.reg r := by
  have hne : ∀ b : Fin 16, b.val ∈ writtenRegs i → r ≠ b := fun _ hb e => hr (e ▸ hb)
  cases h with
  | alu b _ _ hb => simp [hne b hb]
  | move b _ _ hb => simp [hne b hb]
  | push _ _ h4 => simp [hne spIndex h4]
  | call _ target hi => simp [hne spIndex (by simp [hi, writtenRegs, spIndex])]
  | pop a _ hi =>
    obtain ⟨ra, hra, rfl⟩ := hi
    simp [popStack, hne a (by simp [writtenRegs, hra]),
      hne spIndex (by simp [writtenRegs, spIndex])]
  | ret _ hi => simp [popStack, hne spIndex (by simp [hi, writtenRegs, spIndex])]
  | modBothZero => simp
  | fault | advance | halt | transfer | store => rfl

theorem Effect.latch (h : Effect i s t) (hi : i ≠ .halt) : t.H = s.H := by
  cases h with
  | halt he => exact absurd he hi
  | modBothZero => exact setBothZeroFlags_H s
  | fault | alu | move | advance | transfer | store | push | call | pop | ret => rfl

/-- The two writes of the pc (40_execute_common.md R87): any instruction may advance it, and jumps, call and
ret alone transfer it. -/
theorem Effect.pc (h : Effect i s t) :
    t.pc = s.pc ∨ (∃ n, t.pc = (s.advance n).pc) ∨
      ((∃ target, t.pc = (s.transfer target).pc) ∧
        ((∃ target, i ∈ ([.call target, .jmp target, .je target, .jne target, .jl target,
          .jle target, .jg target, .jge target] : List Instr)) ∨ i = .ret)) := by
  cases h with
  | fault | halt => exact .inl rfl
  | modBothZero => exact .inl (setBothZeroFlags_pc s)
  | alu => exact .inr (.inl ⟨2, rfl⟩)
  | move _ _ n => exact .inr (.inl ⟨n, rfl⟩)
  | advance n => exact .inr (.inl ⟨n, rfl⟩)
  | store => exact .inr (.inl ⟨10, rfl⟩)
  | push => exact .inr (.inl ⟨2, rfl⟩)
  | pop => exact .inr (.inl ⟨2, rfl⟩)
  | transfer target hi => exact .inr (.inr ⟨⟨target, rfl⟩, .inl ⟨target, hi⟩⟩)
  | call _ target hi => exact .inr (.inr ⟨⟨target, rfl⟩, .inl ⟨target, by simp [hi]⟩⟩)
  | ret v hi => exact .inr (.inr ⟨⟨v, rfl⟩, .inr hi⟩)

/-- Z and S are both 1 where they were before, or after the flag write of MOD_BOTH_ZERO: an ALU result is
not both 0 and negative. -/
theorem Effect.zero_and_sign (h : Effect i s t) (hZ : t.Z = true) (hS : t.S = true) :
    (s.Z = true ∧ s.S = true) ∨
      (s.S = true ∧ s.modqBothZeroFlags = .setZKeepOthers ∧
        t.rsp = s.rsp ++ [⟨.execFault .modBothZero, none⟩]) := by
  cases h with
  | alu _ r =>
    have hr : r = 0 := of_decide_eq_true hZ
    have hneg : (0 : Word).msb = true := hr ▸ hS
    exact absurd hneg (by decide)
  | modBothZero =>
    obtain ⟨hs, hp⟩ := sign_of_setBothZeroFlags hS
    exact .inr ⟨hs, hp, by simp⟩
  | fault | move | advance | halt | transfer | store | push | call | pop | ret => exact .inl ⟨hZ, hS⟩

/-- The response after the earlier ones determines the status. -/
theorem status_inj {rs : List Response} {a b : Status}
    (h : rs ++ [⟨a, none⟩] = rs ++ [⟨b, none⟩]) : a = b := by
  simpa using h

/-- An execution fault keeps the state, but for the flags on MOD_BOTH_ZERO (40_execute_common.md R79). -/
theorem Effect.of_execFault {k : ExecFault} (h : Effect i s t)
    (hk : t.rsp = s.rsp ++ [⟨.execFault k, none⟩]) :
    (k ≠ .modBothZero ∧ t = s.respond (.execFault k)) ∨
      (k = .modBothZero ∧ (∃ ra rb, i = .modq ra rb) ∧
        t = s.setBothZeroFlags.respond (.execFault .modBothZero)) := by
  cases h with
  | fault k' hne =>
    obtain rfl : k' = k := by simpa using hk
    exact .inl ⟨hne, rfl⟩
  | modBothZero ra rb hi =>
    obtain rfl : ExecFault.modBothZero = k := by simpa using hk
    exact .inr ⟨rfl, ⟨ra, rb, hi⟩, rfl⟩
  | halt | alu | move | advance | transfer | store | push | call | pop | ret =>
    exact absurd (status_inj hk) nofun

/-! ### The rules over all instructions -/

/-- Settles O28: an execution fault is one of the two fault shapes, and the one that is not the plain response
is modq's flag write. -/
theorem faultsChangeNothingButModqFlags : Obligations.FaultsChangeNothingButModqFlags := by
  intro i s t k h hk
  rcases (effect_of_exec h).of_execFault hk with ⟨hne, rfl⟩ | ⟨rfl, hi, rfl⟩
  · exact ⟨fun _ => rfl, fun he => absurd he hne⟩
  · refine ⟨fun hne => absurd rfl hne, fun _ => ⟨hi, setBothZeroFlags_Z s, ?_⟩⟩
    rw [setBothZeroFlags_eq_flags]
    rfl

/-- Settles O30: of the shapes of a next state none sets O. -/
theorem overflowFlagIsNeverSet : Obligations.OverflowFlagIsNeverSet :=
  fun _ _ _ h hO => (effect_of_exec h).overflow hO

/-- Settles O31: no ALU result is 0 and negative, so only MOD_BOTH_ZERO can add a Z to an S. -/
theorem zeroAndSignOnlyFromModqFault : Obligations.ZeroAndSignOnlyFromModqFault :=
  fun _ _ _ h hZ hS => (effect_of_exec h).zero_and_sign hZ hS

/-- Settles O32: halt writes 1 to the latch, and every other instruction keeps it. -/
theorem onlyHaltSetsTheLatch : Obligations.OnlyHaltSetsTheLatch := by
  intro i s t h
  by_cases hi : i = .halt
  · subst hi
    rw [← next_inj.mp h]
    exact ⟨fun _ => .inr rfl, fun _ => rfl⟩
  · rw [(effect_of_exec h).latch hi]
    exact ⟨.inl, fun hs => hs.resolve_right hi⟩

/-- Settles O33: with H = 1 an advance writes nothing, and a transfer only under FreezeAdvanceOnly. -/
theorem pcFrozenWhileHalted : Obligations.PcFrozenWhileHalted := by
  intro i s t h hH hne
  rcases (effect_of_exec h).pc with hpc | ⟨n, hpc⟩ | ⟨⟨target, hpc⟩, hi⟩
  · exact absurd hpc hne
  · exact absurd (hpc.trans (by simp [hH])) hne
  · refine ⟨?_, hi⟩
    cases hp : s.haltPcPolicy with
    | freezeAdvanceOnly => rfl
    | freezeAll => exact absurd (hpc.trans (by simp [hH, hp])) hne

/-- Settles O37: the registers written are among those the instruction's row lists. -/
theorem registerWriteFrame : Obligations.RegisterWriteFrame :=
  fun _ _ _ _ h hr => (effect_of_exec h).keepsRegs hr

/-- Settles O39: the one memory write of an instruction is the quad at its store address. -/
theorem memoryWriteFrame : Obligations.MemoryWriteFrame := by
  intro i s t x hwf h hx
  rcases (effect_of_exec h).memory with hm | ⟨a, v, ha, -, hm⟩
  · rw [hm]
  · exact keepsBytes_of_writeBytes hwf hm x (hx a ha)

/-! ### Steps -/

/-- Settles O35: a request changes the configuration in none of the ways it can end. -/
theorem stepKeepsConfiguration : Obligations.StepKeepsConfiguration := by
  intro s t h
  rcases step_cases h with ⟨-, rfl⟩ | ⟨line, later, -, ⟨-, rfl⟩ | ⟨k, -, rfl⟩ | ⟨i, -, hi⟩⟩
  · exact ⟨rfl, rfl, rfl, rfl, rfl⟩
  · exact ⟨rfl, rfl, rfl, rfl, rfl⟩
  · exact ⟨rfl, rfl, rfl, rfl, rfl⟩
  · exact (effect_of_exec hi).keepsConfig

/-! ### The invariant -/

theorem responseOk_of_status {st : Status} (h : st ≠ .dump) : ResponseOk ⟨st, none⟩ :=
  ⟨by simp [h], nofun⟩

theorem responseOk_snapshot (hO : s.O = false) : ResponseOk ⟨.dump, some s.snapshot⟩ := by
  refine ⟨by simp, fun p hp => ?_⟩
  cases hp
  exact hO

/-- The quad of an access that is in bounds lies in the window, byte by byte. -/
theorem writeBytes_in_window {a v : Word} {m : Memory} (hm : ∀ c ∈ m, InWindow s c.1)
    (hb : s.inBounds a) : ∀ c ∈ m.writeBytes (u64 a) (quadBytes v), InWindow s c.1 := by
  intro c hc
  rcases Memory.mem_writeBytes hc with ⟨hlow, hhigh⟩ | hc
  · rw [quadBytes_length] at hhigh
    exact ⟨by omega, by omega⟩
  · exact hm c hc

theorem responses_snoc {rs : List Response} {r : Response} (h : ∀ q ∈ rs, ResponseOk q)
    (hr : ResponseOk r) : ∀ q ∈ rs ++ [r], ResponseOk q := by
  intro q hq
  rcases List.mem_append.mp hq with hq | hq
  · exact h q hq
  · rw [List.mem_singleton.mp hq]
    exact hr

/-- The invariant speaks of memory, configuration, O and responses alone. -/
theorem StateInv.of_fields (h : StateInv s) (hcfg : KeepsConfig s t) (hO : t.O = true → s.O = true)
    (hwf : Memory.wf t.mem) (hwin : ∀ c ∈ t.mem, InWindow s c.1)
    (hrsp : ∀ r ∈ t.rsp, ResponseOk r) : StateInv t := by
  obtain ⟨hstart, hvalid, hcap, -, -⟩ := hcfg
  refine ⟨hwf, fun c hc => ?_, ?_, ?_, ?_, hrsp⟩
  · rw [InWindow, hstart, hvalid]
    exact hwin c hc
  · rw [hvalid, hcap]
    exact h.capacity
  · rw [hstart, hvalid]
    exact h.window_fits
  · exact Bool.eq_false_iff.mpr fun ht => Bool.false_ne_true (h.overflow_clear.symm.trans (hO ht))

/-- Every instruction keeps the invariant. -/
theorem Effect.keepsInv (he : Effect i s t) (h : StateInv s) : StateInv t := by
  obtain ⟨st, hst, hrsp⟩ := he.response
  refine h.of_fields he.keepsConfig he.overflow ?wf ?window
    (hrsp ▸ responses_snoc h.responses (responseOk_of_status hst))
  case wf =>
    rcases he.memory with hm | ⟨a, v, -, -, hm⟩ <;> rw [hm]
    · exact h.memory_wf
    · exact Memory.wf_writeBytes h.memory_wf _ _
  case window =>
    rcases he.memory with hm | ⟨a, v, -, hb, hm⟩ <;> rw [hm]
    · exact h.memory_in_window
    · exact writeBytes_in_window h.memory_in_window hb

/-- A response alone, given to a request that is no instruction, keeps the invariant. -/
theorem StateInv.of_response (h : StateInv s) {r : Response} (hr : ResponseOk r)
    (later : List Line) : StateInv { s with req := later, rsp := s.rsp ++ [r] } :=
  h.of_fields ⟨rfl, rfl, rfl, rfl, rfl⟩ id h.memory_wf h.memory_in_window
    (responses_snoc h.responses hr)

/-- Taking a request keeps the invariant. -/
theorem StateInv.of_req (h : StateInv s) (later : List Line) : StateInv { s with req := later } :=
  h.of_fields ⟨rfl, rfl, rfl, rfl, rfl⟩ id h.memory_wf h.memory_in_window h.responses

/-- Settles O6: a request ends as a dump, as a decode fault or as an instruction, and each keeps the
invariant: the first two add a response that is well formed, the third is `Effect.keepsInv`. -/
theorem stepKeepsInvariant : Obligations.StepKeepsInvariant := by
  intro s t h hstep
  rcases step_cases hstep with ⟨-, rfl⟩ | ⟨line, later, -, ⟨-, rfl⟩ | ⟨k, -, rfl⟩ | ⟨i, -, hi⟩⟩
  · exact h
  · exact h.of_response (responseOk_snapshot (s := { s with req := later }) h.overflow_clear) later
  · exact h.of_response (responseOk_of_status (st := .decodeFault k) nofun) later
  · exact (effect_of_exec hi).keepsInv (h.of_req later)

end Sys2Proof.Machine
end

section
/-! The statements of 30_encoding.md about tokens and operand tokens (R64, R67 to R69). -/

namespace Sys2Proof

/-! ### Lines and tokens (30_encoding.md R64) -/

theorem isSep_iff (c : Byte) :
    isSep c = true ↔ c.toNat ∈ [0x20, 0x09, 0x0A, 0x0B, 0x0C, 0x0D, 0x2C] := by
  revert c
  decide

/-- A line without separators is its one token. -/
theorem tokens_of_run {t : Token} (h0 : t ≠ []) (h : ∀ c ∈ t, isSep c = false) :
    tokens t = [t] := by
  obtain ⟨c, cs, rfl⟩ := List.exists_cons_of_ne_nil h0
  rw [tokens, foldr_tokenStep_run h, List.append_nil]
  rfl

/-- A separator ends the tokens of what stands before it. -/
theorem tokens_append_sep (a b : Line) {c : Byte} (h : isSep c = true) :
    tokens (a ++ c :: b) = tokens a ++ tokens b := by
  rw [tokens, foldr_tokenStep_sep a b h, closeToken_append]
  rfl

/-! ### Register tokens (30_encoding.md R67) -/

theorem parseReg_eq_ok_iff (t : Token) (r : RegIdx) :
    parseReg t = .ok r ↔ ∃ ds, t = 0x72 :: ds ∧ ds ≠ [] ∧ (∀ c ∈ ds, isDigit c = true) ∧
      ds.length ≤ 2 ∧ r = BitVec.ofNat 7 (digitsValue ds) := by
  constructor
  · intro h
    unfold parseReg at h
    split at h
    · cases h
    · split at h
      · rename_i c ds hc
        obtain ⟨rfl, hnum, hlen⟩ := hc
        obtain ⟨hne, hdigits⟩ := (isNumber_iff ds).mp hnum
        cases h
        exact ⟨ds, rfl, hne, hdigits, hlen, rfl⟩
      · cases h
  · rintro ⟨ds, rfl, hne, hdigits, hlen, rfl⟩
    exact parseReg_of_digits hne hdigits hlen

theorem parseReg_error {t : Token} {k : DecodeFault} (h : parseReg t = .error k) :
    k = .invalidRegister := by
  unfold parseReg at h
  split at h
  · cases h
    rfl
  · split at h
    · cases h
    · cases h
      rfl

theorem digitsValue_one (d : Byte) : digitsValue [d] = d.toNat - 0x30 := by
  simp [digitsValue]

theorem digitsValue_two (d e : Byte) :
    digitsValue [d, e] = 10 * (d.toNat - 0x30) + (e.toNat - 0x30) := by
  simp [digitsValue]

/-- The 7 bits of a register field hold every value below 128. -/
theorem eq_ofNat_iff_toNat {r : RegIdx} {n : Nat} (h : n < 128) :
    r = BitVec.ofNat 7 n ↔ r.toNat = n := by
  rw [← BitVec.toNat_inj, BitVec.toNat_ofNat, Nat.mod_eq_of_lt h]


theorem digitsValue_le_99 {ds : List Byte} (hdigits : ∀ c ∈ ds, isDigit c = true)
    (hlen : ds.length ≤ 2) : digitsValue ds ≤ 99 := by
  match ds, hlen with
  | [], _ => simp [digitsValue]
  | [d], _ =>
    have hd := (isDigit_iff d).mp (hdigits d (by simp))
    rw [digitsValue_one]
    omega
  | [d, e], _ =>
    have hd := (isDigit_iff d).mp (hdigits d (by simp))
    have he := (isDigit_iff e).mp (hdigits e (by simp))
    rw [digitsValue_two]
    omega

theorem parseReg_wellFormed {t : Token} {r : RegIdx} (h : parseReg t = .ok r) : r.wellFormed := by
  obtain ⟨ds, -, -, hdigits, hlen, rfl⟩ := (parseReg_eq_ok_iff t r).mp h
  have := digitsValue_le_99 hdigits hlen
  rw [RegIdx.wellFormed, BitVec.toNat_ofNat]
  omega

/-! ### Immediate tokens (30_encoding.md R68) -/

/-- Digits as the rule bounds them, and as the decoder tests them. -/
theorem isDigit_of_bounds {ds : List Byte} (h : ∀ c ∈ ds, 0x30 ≤ c.toNat ∧ c.toNat ≤ 0x39) :
    ∀ c ∈ ds, isDigit c = true := fun c hc => (isDigit_iff c).mpr (h c hc)

theorem parseImm_of_not_number {t : Token} (h : ¬ isNumber t = true) :
    parseImm t = .error .invalidImmediate := by
  rw [parseImm, if_neg fun hn => h hn.1]

theorem parseImm_of_non_digit {t : Token} {c : Byte} (hc : c ∈ t)
    (h : c.toNat < 0x30 ∨ 0x39 < c.toNat) : parseImm t = .error .invalidImmediate := by
  refine parseImm_of_not_number fun hn => ?_
  obtain ⟨hlow, hhigh⟩ := (isDigit_iff c).mp (((isNumber_iff t).mp hn).2 c hc)
  omega

/-- The decimal spelling of a number, with leading zeros, is parsed by the size of the number alone. -/
theorem parseImm_decimal (k : Nat) {n : Nat} (h : n < 10 ^ 20) :
    parseImm (List.replicate k 0x30 ++ decimal n) =
      if n < 2 ^ 64 then .ok (BitVec.ofNat 64 n) else .error .invalidImmediate := by
  have hdigits : ∀ c ∈ List.replicate k 0x30 ++ decimal n, isDigit c = true := by
    intro c hc
    rcases List.mem_append.mp hc with hc | hc
    · rw [List.eq_of_mem_replicate hc]
      rfl
    · exact isDigit_of_mem_decimal hc
  rw [parseImm_of_digits (by simp [decimal_ne_nil]) hdigits, digitsValue_zeros,
    digitsValue_decimal h]

/-! ### Displacement tokens (30_encoding.md R69) -/

/-- Past the shape, the value of D decides before the register token. -/
theorem parseDisp_of_shape {ds x : List Byte} (h0 : ds ≠ []) (h1 : ∀ c ∈ ds, isDigit c = true)
    (h2 : ∀ c ∈ x, notParen c = true) : parseDisp (ds ++ 0x28 :: (x ++ [0x29])) =
      if digitsValue ds < 2 ^ 64 then
        (parseReg x).map fun r => (BitVec.ofNat 64 (digitsValue ds), r)
      else .error .invalidDisplacement := by
  simp only [parseDisp, dispShape_of_shape h0 h1 h2]

theorem parseDisp_of_no_shape {t : Token} (h : dispShape t = none) :
    parseDisp t = .error .invalidDisplacement := by
  simp only [parseDisp, h]

theorem parseDisp_wellFormed {t : Token} {d : Word} {r : RegIdx} (h : parseDisp t = .ok (d, r)) :
    r.wellFormed := by
  unfold parseDisp at h
  split at h
  · cases h
  · rename_i ds x _
    split at h
    · cases hx : parseReg x with
      | error k => simp [hx, Except.map] at h
      | ok r' =>
        simp only [hx, Except.map, Except.ok.injEq, Prod.mk.injEq] at h
        exact h.2 ▸ parseReg_wellFormed hx
    · cases h

end Sys2Proof

namespace Sys2Proof.Machine

/-- Settles O13: the first clause is over the 256 bytes; the others are what the lexer does with a run and
at a separator. -/
theorem tokensSplitAtSeparators : Obligations.TokensSplitAtSeparators :=
  ⟨isSep_iff, rfl, fun _ h0 h => tokens_of_run h0 h, fun a b _ hc => tokens_append_sep a b hc⟩

/-- Settles O16: a register token is the letter and a list of digits of length 1 or 2, whose value fits the
7 bits of the field. -/
theorem registerTokenGrammar : Obligations.RegisterTokenGrammar := by
  refine ⟨fun t r => ⟨fun h => ?_, ?_⟩, fun t h => ?_⟩
  · obtain ⟨ds, rfl, hne, hdigits, hlen, hr⟩ := (parseReg_eq_ok_iff t r).mp h
    rw [eq_ofNat_iff_toNat (by have := digitsValue_le_99 hdigits hlen; omega)] at hr
    match ds, hne, hlen with
    | [d], _, _ =>
      obtain ⟨hlow, hhigh⟩ := (isDigit_iff d).mp (hdigits d (by simp))
      exact .inl ⟨d, rfl, hlow, hhigh, hr.trans (digitsValue_one d)⟩
    | [d, e], _, _ =>
      obtain ⟨hlow, hhigh⟩ := (isDigit_iff d).mp (hdigits d (by simp))
      obtain ⟨helow, hehigh⟩ := (isDigit_iff e).mp (hdigits e (by simp))
      exact .inr ⟨d, e, rfl, hlow, hhigh, helow, hehigh, hr.trans (digitsValue_two d e)⟩
  · rw [parseReg_eq_ok_iff]
    rintro (⟨d, rfl, hlow, hhigh, hr⟩ | ⟨d, e, rfl, hlow, hhigh, helow, hehigh, hr⟩)
    · refine ⟨[d], rfl, by simp, by simp [isDigit_iff, hlow, hhigh], by simp, ?_⟩
      rw [eq_ofNat_iff_toNat] <;> rw [digitsValue_one] <;> omega
    · refine ⟨[d, e], rfl, by simp, by simp [isDigit_iff, *], by simp, ?_⟩
      rw [eq_ofNat_iff_toNat] <;> rw [digitsValue_two] <;> omega
  · cases hp : parseReg t with
    | error k => rw [parseReg_error hp]
    | ok r => exact absurd hp (h r)

/-- Settles O17: a token of digits is judged by its value, which the decimal spelling gives back; any other
token is refused before its value is formed. -/
theorem immediateTokenGrammar : Obligations.ImmediateTokenGrammar := by
  refine ⟨fun t h0 h => ⟨fun hlt => ?_, fun hge => ?_⟩, rfl, digitsValue_snoc, fun k n hn => ?_,
    fun k n hge hn => ?_, rfl, fun _ _ hc h => parseImm_of_non_digit hc h⟩
  · rw [parseImm_of_digits h0 (isDigit_of_bounds h), if_pos hlt]
  · rw [parseImm_of_digits h0 (isDigit_of_bounds h), if_neg (by omega)]
  · rw [parseImm_decimal k (by omega), if_pos hn]
  · rw [parseImm_decimal k hn, if_neg (by omega)]

/-- Settles O18: on the shape the value of D and then the register decide; the decoder finds the shape
exactly where there is one. -/
theorem displacementTokenGrammar : Obligations.DisplacementTokenGrammar := by
  refine ⟨fun ds x h0 h1 h2 => ?_, fun t hno => ?_⟩
  · have hx : ∀ c ∈ x, notParen c = true := fun c hc => (notParen_iff c).mpr (h2 c hc)
    rw [parseDisp_of_shape h0 (isDigit_of_bounds h1) hx]
    refine ⟨fun hge => ?_, fun hlt hk => ?_, fun r hlt hr => ?_⟩
    · rw [if_neg (by omega)]
    · rw [if_pos hlt, hk]
      rfl
    · rw [if_pos hlt, hr]
      rfl
  · cases hs : dispShape t with
    | none => exact parseDisp_of_no_shape hs
    | some p =>
      obtain ⟨h0, h1, h2, ht⟩ := shape_of_dispShape hs
      exact absurd ⟨p.1, p.2, h0, fun c hc => (isDigit_iff c).mp (h1 c hc),
        fun c hc => (notParen_iff c).mp (h2 c hc), ht⟩ hno

end Sys2Proof.Machine
end

section
/-! The statements of 30_encoding.md about whole lines: mnemonic, operand count and operands (R62, R66, R70,
R71), and the canonical line (R76). -/

namespace Sys2Proof.Machine

variable {α β : Type} {line : Line} {m : Token} {args : List Token}

/-! ### The opcode map against the tables of Safety.lean (30_encoding.md R70, R73) -/

/-- Each mnemonic of the rule has its row, with the operand count the rule gives it. -/
theorem findMnemonic_specCounts : ∀ p ∈ specCounts,
    (findMnemonic p.1).map (fun row => operandCount row.form) = some p.2 := by decide

theorem mnemonic_mem_specCounts :
    ∀ x ∈ opcodeTable.map Row.mnemonic, x ∈ specCounts.map Prod.fst := by decide

theorem row_of_specCounts {n : Nat} (h : (m, n) ∈ specCounts) :
    ∃ row, findMnemonic m = some row ∧ operandCount row.form = n :=
  Option.map_eq_some_iff.mp (findMnemonic_specCounts (m, n) h)

/-- The row of the mnemonic has this format. -/
def HasForm (m : Token) (f : Form) : Prop := (findMnemonic m).map Row.form = some f

theorem hasForm_specN : ∀ f ∈ specN, HasForm f.1 (.N f.2) := by
  simp only [specN, List.forall_mem_cons]
  exact ⟨rfl, rfl, rfl, nofun⟩

theorem hasForm_specR : ∀ f ∈ specR, HasForm f.1 (.R f.2) := by
  simp only [specR, List.forall_mem_cons]
  exact ⟨rfl, rfl, nofun⟩

theorem hasForm_specI : ∀ f ∈ specI, HasForm f.1 (.I f.2) := by
  simp only [specI, List.forall_mem_cons]
  exact ⟨rfl, rfl, rfl, rfl, rfl, rfl, rfl, rfl, nofun⟩

theorem hasForm_specRR : ∀ f ∈ specRR, HasForm f.1 (.RR f.2) := by
  simp only [specRR, List.forall_mem_cons]
  exact ⟨rfl, rfl, rfl, rfl, rfl, rfl, rfl, rfl, rfl, rfl, rfl, rfl, rfl, rfl, nofun⟩

/-! ### Decoding by the format (30_encoding.md R62) -/

theorem decode_of_form {f : Form} (ht : tokens line = m :: args) (hf : HasForm m f)
    (hc : args.length = operandCount f) : decode line = parseOperands f args := by
  obtain ⟨row, hrow, rfl⟩ := Option.map_eq_some_iff.mp hf
  exact decode_of_count ht hrow hc

theorem decodesOne_of_bind {p : Except DecodeFault α} {mk : α → Instr}
    (h : decode line = p >>= fun x => .ok (mk x)) : DecodesOne line p mk := by
  refine ⟨?_, ?_⟩
  · rintro k rfl
    exact h
  · rintro x rfl
    exact h

theorem decodesTwo_of_bind {p : Except DecodeFault α} {q : Except DecodeFault β} {mk : α → β → Instr}
    (h : decode line = p >>= fun x => q >>= fun y => .ok (mk x y)) : DecodesTwo line p q mk := by
  refine ⟨?_, ?_, ?_⟩
  · rintro k rfl
    exact h
  · rintro x k rfl rfl
    exact h
  · rintro x y rfl rfl
    exact h

/-- Settles O15: the first clause goes by the row of the first token, which the tables of the rule and of the
decoder give alike; the second reads off each format's parser. -/
theorem mnemonicThenOperandCount : Obligations.MnemonicThenOperandCount := by
  refine ⟨fun line m args ht => ⟨fun hm => ?unknown, fun n hn hc => ?count, fun n hn hc => ?right⟩,
    fun line a b => ⟨fun f hf ht => ?N, fun f hf ht => ?R, fun f hf ht => ?I, fun f hf ht => ?RR,
      fun ht => ?IR, fun ht => ?RM, fun ht => ?MR⟩⟩
  case unknown =>
    exact decode_of_unknown ht (findMnemonic_eq_none.mpr fun h => hm (mnemonic_mem_specCounts m h))
  case count =>
    obtain ⟨row, hrow, rfl⟩ := row_of_specCounts hn
    exact decode_of_count_ne ht hrow hc
  case right =>
    obtain ⟨row, hrow, rfl⟩ := row_of_specCounts hn
    rw [decode_of_count ht hrow hc]
    have hfaults := parseOperands_onlyOperandFaults hc
    exact ⟨fun h => absurd (hfaults _ h) (by decide), fun h => absurd (hfaults _ h) (by decide)⟩
  case N => exact decode_of_form ht (hasForm_specN f hf) rfl
  case R => exact decodesOne_of_bind (decode_of_form ht (hasForm_specR f hf) rfl)
  case I => exact decodesOne_of_bind (decode_of_form ht (hasForm_specI f hf) rfl)
  case RR => exact decodesTwo_of_bind (decode_of_form ht (hasForm_specRR f hf) rfl)
  case IR => exact decodesTwo_of_bind (decode_of_form (f := .IR .irmovq) ht rfl rfl)
  case RM => exact decodesTwo_of_bind (decode_of_form (f := .RM .rmmovq) ht rfl rfl)
  case MR => exact decodesTwo_of_bind (decode_of_form (f := .MR .mrmovq) ht rfl rfl)

end Sys2Proof.Machine

namespace Sys2Proof

/-! ### Well-formed instructions (30_encoding.md R67, R72) -/

/-- The instruction a format builds has the register fields that the format sets. -/
def Form.BuildsFields : Form → Prop
  | .N i => i.regFields = []
  | .R mk => ∀ a, (mk a).regFields = [a]
  | .RR mk => ∀ a b, (mk a b).regFields = [a, b]
  | .IR mk => ∀ v b, (mk v b).regFields = [b]
  | .RM mk => ∀ a d b, (mk a d b).regFields = [a, b]
  | .MR mk => ∀ d b a, (mk d b a).regFields = [b, a]
  | .I mk => ∀ v, (mk v).regFields = []

theorem buildsFields_of_mem : ∀ row ∈ opcodeTable, row.form.BuildsFields := by
  simp [opcodeTable, Form.BuildsFields, Instr.regFields]

theorem bind_eq_ok {α β : Type} {p : Except DecodeFault α} {f : α → Except DecodeFault β} {y : β}
    (h : p >>= f = .ok y) : ∃ x, p = .ok x ∧ f x = .ok y := by
  cases p with
  | error k => cases h
  | ok x => exact ⟨x, rfl, h⟩

theorem wellFormed_of_regFields {i : Instr} {rs : List RegIdx} (h : i.regFields = rs)
    (hrs : ∀ r ∈ rs, r.wellFormed) : i.wellFormed := by
  rw [Instr.wellFormed, h]
  exact hrs

theorem wellFormed_of_pair {i : Instr} {a b : RegIdx} (h : i.regFields = [a, b])
    (ha : a.wellFormed) (hb : b.wellFormed) : i.wellFormed :=
  wellFormed_of_regFields h (List.forall_mem_cons.mpr ⟨ha, List.forall_mem_singleton.mpr hb⟩)

/-- The registers an instruction is built from are parsed ones, and these are 0 to 99. -/
theorem parseOperands_wellFormed {f : Form} {ts : List Token} {i : Instr} (hf : f.BuildsFields)
    (h : parseOperands f ts = .ok i) : i.wellFormed := by
  unfold parseOperands at h
  split at h
  next i =>
    cases h
    exact wellFormed_of_regFields hf nofun
  next mk a =>
    obtain ⟨ra, hra, h⟩ := bind_eq_ok h
    cases h
    exact wellFormed_of_regFields (hf ra) (List.forall_mem_singleton.mpr (parseReg_wellFormed hra))
  next mk a b =>
    obtain ⟨ra, hra, h⟩ := bind_eq_ok h
    obtain ⟨rb, hrb, h⟩ := bind_eq_ok h
    cases h
    exact wellFormed_of_pair (hf ra rb) (parseReg_wellFormed hra) (parseReg_wellFormed hrb)
  next mk v b =>
    obtain ⟨imm, -, h⟩ := bind_eq_ok h
    obtain ⟨rb, hrb, h⟩ := bind_eq_ok h
    cases h
    exact wellFormed_of_regFields (hf imm rb)
      (List.forall_mem_singleton.mpr (parseReg_wellFormed hrb))
  next mk a m =>
    obtain ⟨ra, hra, h⟩ := bind_eq_ok h
    obtain ⟨⟨d, rb⟩, hm, h⟩ := bind_eq_ok h
    cases h
    exact wellFormed_of_pair (hf ra d rb) (parseReg_wellFormed hra) (parseDisp_wellFormed hm)
  next mk m a =>
    obtain ⟨⟨d, rb⟩, hm, h⟩ := bind_eq_ok h
    obtain ⟨ra, hra, h⟩ := bind_eq_ok h
    cases h
    exact wellFormed_of_pair (hf d rb ra) (parseDisp_wellFormed hm) (parseReg_wellFormed hra)
  next mk v =>
    obtain ⟨imm, -, h⟩ := bind_eq_ok h
    cases h
    exact wellFormed_of_regFields (hf imm) nofun
  next => cases h

/-- A line that decodes has a row, and the row's format builds the instruction of its operand tokens. -/
theorem parseOperands_of_decode {line : Line} {i : Instr} (h : decode line = .ok i) :
    ∃ row ∈ opcodeTable, ∃ args, parseOperands row.form args = .ok i := by
  cases ht : tokens line with
  | nil => exact absurd ((decode_of_no_tokens ht).symm.trans h) nofun
  | cons m args =>
    cases hf : findMnemonic m with
    | none => exact absurd ((decode_of_unknown ht hf).symm.trans h) nofun
    | some row =>
      by_cases hc : args.length = operandCount row.form
      · exact ⟨row, (mem_of_findMnemonic hf).1, args, (decode_of_count ht hf hc).symm.trans h⟩
      · exact absurd ((decode_of_count_ne ht hf hc).symm.trans h) nofun

/-! ### The canonical line (30_encoding.md R76) -/

/-- No separator and not empty: what the lexer gives back as one token. -/
def IsToken (t : Token) : Prop := t ≠ [] ∧ ∀ c ∈ t, isSep c = false

theorem tokens_of_isToken {t : Token} (h : IsToken t) : tokens t = [t] := tokens_of_run h.1 h.2

/-- Tokens with a comma before each, after a first one. -/
theorem tokens_commas {a : Token} (ha : IsToken a) {ts : List Token} (hts : ∀ t ∈ ts, IsToken t) :
    tokens (a ++ ts.flatMap fun t => 0x2C :: t) = a :: ts := by
  induction ts generalizing a with
  | nil => simpa using tokens_of_isToken ha
  | cons t ts ih =>
    obtain ⟨ht, hts⟩ := List.forall_mem_cons.mp hts
    rw [List.flatMap_cons, List.cons_append, tokens_append_sep a _ (by decide), tokens_of_isToken ha,
      ih ht hts]
    rfl

theorem tokens_spell {m : Token} {ts : List Token} (hm : IsToken m) (hts : ∀ t ∈ ts, IsToken t) :
    tokens (spell m ts) = m :: ts := by
  cases ts with
  | nil => exact tokens_of_isToken hm
  | cons a ts =>
    obtain ⟨ha, hts⟩ := List.forall_mem_cons.mp hts
    rw [spell, tokens_append_sep m _ (by decide), tokens_of_isToken hm, tokens_commas ha hts]
    rfl

theorem isToken_decimal (n : Nat) : IsToken (decimal n) :=
  ⟨decimal_ne_nil n, fun _ hc => isSep_of_isDigit (isDigit_of_mem_decimal hc)⟩

theorem isToken_append {t u : Token} (ht : IsToken t) (hu : ∀ c ∈ u, isSep c = false) :
    IsToken (t ++ u) := by
  refine ⟨by simp [ht.1], fun c hc => ?_⟩
  rcases List.mem_append.mp hc with hc | hc
  · exact ht.2 c hc
  · exact hu c hc

theorem isToken_encodeReg (r : RegIdx) : IsToken (encodeReg r) :=
  isToken_append (t := [0x72]) ⟨by simp, by decide⟩ (isToken_decimal r.toNat).2

theorem isToken_encodeDisp (d : Word) (r : RegIdx) : IsToken (encodeDisp d r) := by
  refine isToken_append (isToken_decimal d.toNat) fun c hc => ?_
  rcases List.mem_cons.mp hc with rfl | hc
  · decide
  · exact (isToken_append (isToken_encodeReg r) (u := [0x29]) (by decide)).2 c hc

theorem isToken_mnemonic : ∀ row ∈ opcodeTable, IsToken row.mnemonic := by
  have hall : ∀ row ∈ opcodeTable,
      row.mnemonic ≠ [] ∧ row.mnemonic.all (fun c => !isSep c) = true := by decide
  intro row hrow
  obtain ⟨hne, hsep⟩ := hall row hrow
  exact ⟨hne, fun c hc => by simpa using List.all_eq_true.mp hsep c hc⟩

theorem isToken_operandTokens (f : Form) (b : Bundle) : ∀ t ∈ operandTokens f b, IsToken t := by
  cases f <;> simp [operandTokens, isToken_encodeReg, isToken_encodeDisp, isToken_decimal]

theorem length_operandTokens (f : Form) (b : Bundle) :
    (operandTokens f b).length = operandCount f := by
  cases f <;> rfl

/-! ### Operand tokens written are the operands read (30_encoding.md R67 to R69) -/

theorem parseImm_decimal_toNat (v : Word) : parseImm (decimal v.toNat) = .ok v := by
  have hv := u64_lt v
  have h := parseImm_decimal 0 (n := v.toNat) (by omega)
  rw [if_pos hv] at h
  simpa using h

/-- A number below 10^k has at most k digits, and 0 has one. -/
theorem length_decimalAux_le (fuel k n : Nat) (h : n < 10 ^ (k + 1)) :
    (decimalAux fuel n []).length ≤ k + 1 := by
  induction fuel generalizing k n with
  | zero => exact Nat.zero_le _
  | succ fuel ih =>
    simp only [decimalAux]
    split
    · simp
    · rename_i hn
      cases k with
      | zero => exact absurd h hn
      | succ k =>
        have hk : n / 10 < 10 ^ (k + 1) := by
          rw [pow_succ] at h
          omega
        rw [decimalAux_append, List.length_append, List.length_singleton]
        exact Nat.succ_le_succ (ih k _ hk)

theorem parseReg_encodeReg {r : RegIdx} (h : r.wellFormed) : parseReg (encodeReg r) = .ok r := by
  have hr : r.toNat ≤ 99 := h
  rw [encodeReg, parseReg_of_digits (decimal_ne_nil _) (fun _ hc => isDigit_of_mem_decimal hc)
    (length_decimalAux_le 20 1 _ (by omega)), digitsValue_decimal (by omega), BitVec.ofNat_toNat]
  rfl

theorem notParen_of_isDigit {c : Byte} (h : isDigit c = true) : notParen c = true := by
  revert c
  decide

theorem notParen_encodeReg (r : RegIdx) : ∀ c ∈ encodeReg r, notParen c = true := by
  intro c hc
  rcases List.mem_cons.mp hc with rfl | hc
  · decide
  · exact notParen_of_isDigit (isDigit_of_mem_decimal hc)

theorem parseDisp_encodeDisp (d : Word) {r : RegIdx} (h : r.wellFormed) :
    parseDisp (encodeDisp d r) = .ok (d, r) := by
  have hd := u64_lt d
  have hvalue : digitsValue (decimal d.toNat) = d.toNat := digitsValue_decimal (by omega)
  rw [encodeDisp, parseDisp_of_shape (decimal_ne_nil _) (fun _ hc => isDigit_of_mem_decimal hc)
    (notParen_encodeReg r), hvalue, if_pos hd, parseReg_encodeReg h, BitVec.ofNat_toNat]
  rfl

/-- Each operand is read back, so the format builds the same instruction from tokens and from fields. -/
theorem parseOperands_operandTokens (f : Form) {b : Bundle} (ha : b.ra.wellFormed)
    (hb : b.rb.wellFormed) : parseOperands f (operandTokens f b) = .ok (formFromFields f b) := by
  cases f <;>
    simp only [operandTokens, parseOperands, parseReg_encodeReg ha, parseReg_encodeReg hb,
      parseImm_decimal_toNat, parseDisp_encodeDisp b.imm hb] <;> rfl

/-! ### The row of an instruction (30_encoding.md R73) -/

theorem bundleFields_op_lt (i : Instr) : (bundleFields i).1 < 30 := by
  cases i <;> exact of_decide_eq_true rfl

theorem formFromFields_toBundle (i : Instr) :
    formFromFields (rowAt (bundleFields i).1).form (toBundle i) = i := by
  cases i <;> rfl

/-- The register fields of the bundle are the instruction's, or 0. -/
theorem toBundle_wellFormed {i : Instr} (h : i.wellFormed) :
    (toBundle i).ra.wellFormed ∧ (toBundle i).rb.wellFormed := by
  have hfield : ∀ r : RegIdx, r ∈ i.regFields ∨ r = 0 → r.wellFormed := by
    rintro r (hr | rfl)
    · exact h r hr
    · decide
  have hmem : ((toBundle i).ra ∈ i.regFields ∨ (toBundle i).ra = 0) ∧
      ((toBundle i).rb ∈ i.regFields ∨ (toBundle i).rb = 0) := by
    cases i <;> simp [toBundle, bundleFields, Instr.regFields]
  exact ⟨hfield _ hmem.1, hfield _ hmem.2⟩

/-- No two rows share a mnemonic, so a row is found by its own. -/
theorem findMnemonic_of_mem {row : Row} (h : row ∈ opcodeTable) :
    findMnemonic row.mnemonic = some row := by
  cases hf : findMnemonic row.mnemonic with
  | none => exact absurd (List.mem_map_of_mem h) (findMnemonic_eq_none.mp hf)
  | some row' =>
    obtain ⟨hmem, hname⟩ := mem_of_findMnemonic hf
    rw [List.inj_on_of_nodup_map mnemonics_distinct hmem h hname]

theorem decode_encode {i : Instr} (h : i.wellFormed) : decode (encode i) = .ok i := by
  obtain ⟨ha, hb⟩ := toBundle_wellFormed h
  have hrow := Laws.BundleHeader.rowAt_mem _ (bundleFields_op_lt i)
  have ht := tokens_spell (isToken_mnemonic _ hrow)
    (isToken_operandTokens (rowAt (bundleFields i).1).form (toBundle i))
  rw [encode, decode_of_count ht (findMnemonic_of_mem hrow) (length_operandTokens _ _),
    parseOperands_operandTokens _ ha hb, formFromFields_toBundle]

end Sys2Proof

namespace Sys2Proof.Machine

/-- Settles O12: the row's format builds the instruction from parsed registers. -/
theorem decodedInstructionIsWellFormed : Obligations.DecodedInstructionIsWellFormed := by
  intro line i h
  obtain ⟨row, hrow, args, hparse⟩ := parseOperands_of_decode h
  exact parseOperands_wellFormed (buildsFields_of_mem row hrow) hparse

/-- Settles O7: the lexer gives the mnemonic and the operand tokens back, the mnemonic its row, and each
operand token its field. -/
theorem decodeOfEncodeIsTheInstruction : Obligations.DecodeOfEncodeIsTheInstruction :=
  fun _ h => decode_encode h

end Sys2Proof.Machine
end

section
/-! The statements of 30_encoding.md about the decoded bundle (R72, R75) and of the model about table words
(log 12). -/

namespace Sys2Proof

/-! ### The rows by their numbers (30_encoding.md R73) -/

theorem ops_distinct : (opcodeTable.map Row.op).Nodup := ops_in_order ▸ List.nodup_range

theorem conds_eq_specConds : opcodeTable.map Row.cond = Machine.specConds := by decide

theorem findOp_of_mem {row : Row} (h : row ∈ opcodeTable) : findOp row.op row.cond = some row := by
  cases hf : findOp row.op row.cond with
  | none => exact absurd (List.find?_eq_none.mp hf row h) (by simp)
  | some row' =>
    obtain ⟨hmem, hop, -⟩ := mem_of_findOp hf
    rw [List.inj_on_of_nodup_map ops_distinct hmem h hop]

/-- The op number is the place in the map. -/
theorem op_of_getElem? {k : Nat} {row : Row} (h : opcodeTable[k]? = some row) : row.op = k := by
  have hk : (opcodeTable.map Row.op)[k]? = some row.op := by rw [List.getElem?_map, h]; rfl
  rw [ops_in_order] at hk
  obtain ⟨hlt, hget⟩ := List.getElem?_eq_some_iff.mp hk
  rw [← hget, List.getElem_range]

/-- A pair of numbers has a row exactly where the cond is the op's (30_encoding.md R75). -/
theorem findOp_isSome_iff (op cond : Nat) :
    (∃ row, findOp op cond = some row) ↔ Machine.specConds[op]? = some cond := by
  rw [← conds_eq_specConds, List.getElem?_map, Option.map_eq_some_iff]
  constructor
  · rintro ⟨row, h⟩
    obtain ⟨hmem, rfl, rfl⟩ := mem_of_findOp h
    obtain ⟨k, hk⟩ := List.mem_iff_getElem?.mp hmem
    exact ⟨row, by rw [op_of_getElem? hk, hk], rfl⟩
  · rintro ⟨row, h, rfl⟩
    exact ⟨row, by rw [← op_of_getElem? h]; exact findOp_of_mem (List.mem_of_getElem? h)⟩

/-! ### The bundle of an instruction (30_encoding.md R72) -/

theorem decodeBundle_eq (w : BitVec 86) :
    decodeBundle w = (findOp (w.extractLsb' 81 5).toNat (w.extractLsb' 78 3).toNat).map fun row =>
      formFromFields row.form (unpackBundle w) := rfl

theorem rowAt_op {n : Nat} (h : n < 30) : (rowAt n).op = n := by
  have hlt : n < opcodeTable.length := h
  have hget : opcodeTable[n]? = some (rowAt n) := by
    rw [rowAt, List.getD_eq_getElem _ _ hlt, List.getElem?_eq_getElem hlt]
  exact op_of_getElem? hget

theorem cond_lt_of_mem : ∀ row ∈ opcodeTable, row.cond < 8 := by decide

/-- The numbers of an instruction's row fit the bundle's fields. -/
theorem findOp_toBundle (i : Instr) : findOp (toBundle i).op.toNat (toBundle i).cond.toNat =
    some (rowAt (bundleFields i).1) := by
  have hlt := bundleFields_op_lt i
  have hmem := Laws.BundleHeader.rowAt_mem _ hlt
  have hop : (toBundle i).op.toNat = (rowAt (bundleFields i).1).op := by
    rw [rowAt_op hlt]
    exact Nat.mod_eq_of_lt (by omega)
  have hcond : (toBundle i).cond.toNat = (rowAt (bundleFields i).1).cond :=
    Nat.mod_eq_of_lt (cond_lt_of_mem _ hmem)
  rw [hop, hcond, findOp_of_mem hmem]

theorem decodeBundle_encodeBundle (i : Instr) : decodeBundle (encodeBundle i) = some i := by
  rw [decodeBundle, encodeBundle, unpack_pack, ofBundle, findOp_toBundle, Option.map_some,
    formFromFields_toBundle]

/-! ### Table words (log 12) -/

theorem lineOfTableWord_encodeBundle (i : Instr) :
    lineOfTableWord 88 (encodeBundle i).toNat = some (encode i) := by
  have hlt : (encodeBundle i).toNat < 2 ^ 86 := (encodeBundle i).isLt
  have hmod : (encodeBundle i).toNat % 2 ^ 88 = (encodeBundle i).toNat :=
    Nat.mod_eq_of_lt (hlt.trans (by decide))
  rw [lineOfTableWord, hmod, if_pos hlt, BitVec.ofNat_toNat, BitVec.setWidth_eq,
    decodeBundle_encodeBundle, Option.map_some]

end Sys2Proof

namespace Sys2Proof.Machine

variable {s : State} {w : BitVec 86}

theorem executeBundle_of_some {i : Instr} (h : decodeBundle w = some i) :
    executeBundle w s = exec i s := by
  rw [executeBundle, h]

theorem executeBundle_of_none (h : decodeBundle w = none) :
    executeBundle w s = .refused .unusedBundle := by
  rw [executeBundle, h]

/-- Only a bundle without an instruction is refused, since every instruction completes. -/
theorem executeBundle_refused_iff :
    executeBundle w s = .refused .unusedBundle ↔ decodeBundle w = none := by
  cases h : decodeBundle w with
  | none => simp [executeBundle_of_none h]
  | some i =>
    obtain ⟨t, ht⟩ := exec_completes i s
    simp [executeBundle_of_some h, ht]

theorem decodeBundle_eq_none_iff : decodeBundle w = none ↔
    specConds[(w.extractLsb' 81 5).toNat]? ≠ some (w.extractLsb' 78 3).toNat := by
  rw [decodeBundle_eq, Option.map_eq_none_iff, Option.eq_none_iff_forall_ne_some, Ne,
    ← findOp_isSome_iff, not_exists]

/-- Settles O8: packing loses no field, and the numbers of a row find the row. -/
theorem bundleOfInstructionRunsIt : Obligations.BundleOfInstructionRunsIt :=
  fun i _ => ⟨decodeBundle_encodeBundle i, executeBundle_of_some (decodeBundle_encodeBundle i)⟩

/-- Settles O9: a bundle is refused exactly where no row has its numbers; an op above 29 has no cond at all,
so the first alternative is part of the second. -/
theorem bundleRefusedExactlyWhenUnused : Obligations.BundleRefusedExactlyWhenUnused := by
  intro w s
  refine ⟨?refused, fun hsome => ?completes⟩
  case refused =>
    rw [executeBundle_refused_iff, decodeBundle_eq_none_iff]
    refine ⟨.inr, fun h => h.elim (fun hop => ?_) id⟩
    have hlen : specConds.length ≤ (w.extractLsb' 81 5).toNat := hop
    rw [List.getElem?_eq_none hlen]
    exact nofun
  case completes =>
    rw [Ne, executeBundle_refused_iff] at hsome
    obtain ⟨i, hi⟩ := Option.ne_none_iff_exists'.mp hsome
    rw [executeBundle_of_some hi]
    exact exec_completes i s

/-- Settles O11: the table word's line is the instruction's canonical line, and taking it from the front of
the queue leaves the state as it was. -/
theorem tableWordRunsAsTheNextStep : Obligations.TableWordRunsAsTheNextStep := by
  intro i s h
  refine ⟨?read, ?run⟩
  case read =>
    rw [decodeTableWord, lineOfTableWord_encodeBundle, Option.bind_some, decode_encode h]
    rfl
  case run =>
    have hreq : (s.withFetchWord 88 (encodeBundle i).toNat).req = encode i :: s.req := by
      rw [State.withFetchWord, tableWordLine, lineOfTableWord_encodeBundle]
      rfl
    rw [step_of_waiting hreq, transact_of_decode_ok (decode_encode h)]
    rfl

end Sys2Proof.Machine
end

section
/-! The statement of 60_exceptions.md about the statuses of each instruction (R123). -/

namespace Sys2Proof.Machine

/-! ### Accesses whose bounds are known (20_memory.md R46 to R48) -/

/-- The state with a quad written, as MemWrite leaves it. -/
def State.withQuad (s : State) (addr v : Word) : State :=
  { s with mem := s.mem.writeBytes (u64 addr) (quadBytes v) }

theorem storeThen_of_inBounds {s : State} {addr : Word} (h : s.inBounds addr) (v : Word)
    (f : State → Result) : storeThen s addr v f = f (s.withQuad addr v) := by
  rw [storeThen, memWrite_of_inBounds h, State.withQuad]

theorem storeThen_of_not {s : State} {addr : Word} (h : ¬ s.inBounds addr) (v : Word)
    (f : State → Result) : storeThen s addr v f = raise .memBounds s := by
  rw [storeThen, memWrite_of_not h]

theorem loadThen_of_inBounds {s : State} {addr : Word} (h : s.inBounds addr) (f : Word → Result) :
    loadThen s addr f = f (s.mem.readQuad (u64 addr)) := by
  rw [loadThen, memRead_of_inBounds h]

theorem loadThen_of_not {s : State} {addr : Word} (h : ¬ s.inBounds addr) (f : Word → Result) :
    loadThen s addr f = raise .memBounds s := by
  rw [loadThen, memRead_of_not h]

/-! ### The statuses -/

/-- A next state of r has one response more than s, with status OK or one of the faults. -/
def AnswersFrom (s : State) (faults : List ExecFault) (r : Result) : Prop :=
  ∀ t, r = .next t → ∃ st, t.rsp = s.rsp ++ [⟨st, none⟩] ∧
    (st = .ok ∨ ∃ k ∈ faults, st = .execFault k)

section Statuses

variable {s u : State} {faults : List ExecFault}

theorem answersFrom_succeed (hu : u.rsp = s.rsp) : AnswersFrom s faults (succeed u) := by
  intro t ht
  rw [← next_inj.mp ht, respond_rsp, hu]
  exact ⟨_, rfl, .inl rfl⟩

theorem answersFrom_raise {k : ExecFault} (hk : k ∈ faults) (hu : u.rsp = s.rsp) :
    AnswersFrom s faults (raise k u) := by
  intro t ht
  rw [← next_inj.mp ht, respond_rsp, hu]
  exact ⟨_, rfl, .inr ⟨k, hk, rfl⟩⟩

theorem answersFrom_withReg {r : RegIdx} {f : Fin 16 → Result} (hk : .regRange ∈ faults)
    (hf : ∀ a, AnswersFrom s faults (f a)) : AnswersFrom s faults (withReg r s f) := by
  unfold withReg
  split
  · exact hf _
  · exact answersFrom_raise hk rfl

theorem answersFrom_withRegs {ra rb : RegIdx} {f : Fin 16 → Fin 16 → Result} (hk : .regRange ∈ faults)
    (hf : ∀ a b, AnswersFrom s faults (f a b)) : AnswersFrom s faults (withRegs ra rb s f) :=
  answersFrom_withReg hk fun a => answersFrom_withReg hk (hf a)

theorem answersFrom_storeThen {addr v : Word} {f : State → Result} (hk : .memBounds ∈ faults)
    (hf : ∀ m, AnswersFrom s faults (f { s with mem := m })) :
    AnswersFrom s faults (storeThen s addr v f) := by
  by_cases hb : s.inBounds addr
  · rw [storeThen_of_inBounds hb]
    exact hf _
  · rw [storeThen_of_not hb]
    exact answersFrom_raise hk rfl

theorem answersFrom_loadThen {addr : Word} {f : Word → Result} (hk : .memBounds ∈ faults)
    (hf : ∀ v, AnswersFrom s faults (f v)) : AnswersFrom s faults (loadThen s addr f) := by
  unfold loadThen
  split
  · exact hf _
  · exact answersFrom_raise hk rfl

theorem answersFrom_ite {p : Prop} [Decidable p] {x y : Result} (hx : AnswersFrom s faults x)
    (hy : AnswersFrom s faults y) : AnswersFrom s faults (if p then x else y) := by
  split
  · exact hx
  · exact hy

theorem answersFrom_cmov (cc : Bool) {ra rb : RegIdx} (hk : .regRange ∈ faults) :
    AnswersFrom s faults (cmov cc ra rb s) :=
  answersFrom_withRegs hk fun _ _ => answersFrom_succeed (by cases cc <;> rfl)

theorem answersFrom_jump (cc : Bool) (target : Word) : AnswersFrom s faults (jump cc target s) :=
  answersFrom_succeed (by cases cc <;> rfl)

end Statuses

/-- Each check of an instruction raises a fault that its row lists. -/
theorem exec_answersFrom (s : State) {i : Instr} (hi : i ≠ .halt) :
    AnswersFrom s (raisedBy i) (exec i s) := by
  cases i with
  | halt => exact absurd rfl hi
  | nop => exact answersFrom_succeed rfl
  | irmovq =>
    exact answersFrom_withReg (faults := [.regRange]) (by decide) fun _ => answersFrom_succeed rfl
  | rmmovq =>
    exact answersFrom_withRegs (faults := [.regRange, .memBounds]) (by decide) fun _ _ =>
      answersFrom_storeThen (by decide) fun _ => answersFrom_succeed rfl
  | mrmovq =>
    exact answersFrom_withRegs (faults := [.regRange, .memBounds]) (by decide) fun _ _ =>
      answersFrom_loadThen (by decide) fun _ => answersFrom_succeed rfl
  | pushq =>
    exact answersFrom_withReg (faults := [.regRange, .pushSpGuard, .memBounds]) (by decide) fun _ =>
      answersFrom_ite (answersFrom_raise (by decide) rfl)
        (answersFrom_storeThen (by decide) fun _ => answersFrom_succeed rfl)
  | popq =>
    exact answersFrom_withReg (faults := [.regRange, .memBounds]) (by decide) fun _ =>
      answersFrom_loadThen (by decide) fun _ => answersFrom_succeed rfl
  | call =>
    exact answersFrom_ite (faults := [.callSpZero, .memBounds]) (answersFrom_raise (by decide) rfl)
      (answersFrom_storeThen (by decide) fun _ => answersFrom_succeed rfl)
  | ret =>
    exact answersFrom_loadThen (faults := [.memBounds]) (by decide) fun _ => answersFrom_succeed rfl
  | jmp | je | jne | jl | jle | jg | jge => exact answersFrom_jump _ _
  | rrmovq | addq | subq | mulq | andq | xorq =>
    exact answersFrom_withRegs (faults := [.regRange]) (by decide) fun _ _ => answersFrom_succeed rfl
  | divq =>
    exact answersFrom_withRegs (faults := [.regRange, .divZero, .divOverflow]) (by decide) fun _ _ =>
      answersFrom_ite (answersFrom_raise (by decide) rfl)
        (answersFrom_ite (answersFrom_raise (by decide) rfl) (answersFrom_succeed rfl))
  | modq =>
    exact answersFrom_withRegs (faults := [.regRange, .modBothZero, .divOverflow]) (by decide) fun _ _ =>
      answersFrom_ite
        (answersFrom_ite (answersFrom_raise (by decide) (setBothZeroFlags_rsp s))
          (answersFrom_succeed rfl))
        (answersFrom_ite (answersFrom_raise (by decide) rfl) (answersFrom_succeed rfl))
  | cmove | cmovne | cmovl | cmovle | cmovg | cmovge =>
    exact answersFrom_cmov (faults := [.regRange]) _ (by decide)

/-- Settles O26: halt answers HALTED, and every other instruction OK or a fault of its row. -/
theorem statusesComeOnlyFromTheirInstructions : Obligations.StatusesComeOnlyFromTheirInstructions := by
  intro i s t h
  by_cases hi : i = .halt
  · subst hi
    rw [← next_inj.mp h]
    exact ⟨.halted, rfl, .inr (.inl ⟨rfl, rfl⟩)⟩
  · obtain ⟨st, hrsp, hst | ⟨k, hk, hst⟩⟩ := exec_answersFrom s hi t h
    · exact ⟨st, hrsp, .inl ⟨hst, hi⟩⟩
    · exact ⟨st, hrsp, .inr (.inr ⟨k, hst, hk⟩)⟩

end Sys2Proof.Machine
end

section
/-! What an instruction does not depend on (10_state.md R26, R38; 40_execute_common.md R87; 00_scope.md R15):
one walk over the instructions that runs each from two states side by side. -/

namespace Sys2Proof.Machine

/-! ### Two runs side by side -/

/-- Both complete, and the next states are related by Q. -/
def Lockstep (Q : State → State → Prop) (x y : Result) : Prop :=
  ∃ t u, x = .next t ∧ y = .next u ∧ Q t u

/-- The fields that an instruction reads, beside registers and what its pc write and its response read. -/
structure SameInputs (s u : State) : Prop where
  pc : u.pc = s.pc
  Z : u.Z = s.Z
  S : u.S = s.S
  O : u.O = s.O
  startAddr : u.startAddr = s.startAddr
  validMem : u.validMem = s.validMem
  mem : u.mem = s.mem
  modqBothZeroFlags : u.modqBothZeroFlags = s.modqBothZeroFlags

/-- R relates two states up to the pc write, Q from the pc write on: they agree on what is read, and every
operation on both keeps them related. P holds of the registers that may be read and written. -/
structure Simulation (P : Fin 16 → Prop) (R Q : State → State → Prop) : Prop where
  same : ∀ {s u}, R s u → SameInputs s u
  reg : ∀ {s u k}, R s u → P k → u.reg k = s.reg k
  setReg : ∀ {s u k} (v : Word), R s u → P k → R (s.setReg k v) (u.setReg k v)
  setFlags : ∀ {s u} (z n o : Bool), R s u →
    R { s with Z := z, S := n, O := o } { u with Z := z, S := n, O := o }
  setMem : ∀ {s u} (m : Memory), R s u → R { s with mem := m } { u with mem := m }
  setLatch : ∀ {s u}, R s u → R { s with H := true } { u with H := true }
  advance : ∀ {s u} (n : Nat), R s u → Q (s.advance n) (u.advance n)
  transfer : ∀ {s u} (target : Word), R s u → Q (s.transfer target) (u.transfer target)
  keep : ∀ {s u}, R s u → Q s u
  respond : ∀ {s u} (st : Status), Q s u → Q (s.respond st) (u.respond st)

/-- The register that a field names, if it names one, is admitted. -/
def Admits (P : Fin 16 → Prop) (r : RegIdx) : Prop := ∀ a : Fin 16, r.toNat = a.val → P a

namespace Simulation

variable {P : Fin 16 → Prop} {R Q : State → State → Prop} {s u : State} {ra rb : RegIdx}

theorem succeed (sim : Simulation P R Q) (h : Q s u) : Lockstep Q (succeed s) (succeed u) :=
  ⟨_, _, rfl, rfl, sim.respond .ok h⟩

theorem raise (sim : Simulation P R Q) (h : R s u) (k : ExecFault) :
    Lockstep Q (raise k s) (raise k u) :=
  ⟨_, _, rfl, rfl, sim.respond _ (sim.keep h)⟩

theorem withReg (sim : Simulation P R Q) (h : R s u) {f g : Fin 16 → Result}
    (hP : Admits P ra) (hfg : ∀ a, P a → Lockstep Q (f a) (g a)) :
    Lockstep Q (withReg ra s f) (withReg ra u g) := by
  rcases regOf_cases ra with ⟨a, ha, -⟩ | ⟨ha, -⟩
  · rw [withReg_of_eq ha, withReg_of_eq ha]
    exact hfg a (hP a ha)
  · rw [withReg_of_gt ha, withReg_of_gt ha]
    exact sim.raise h _

theorem withRegs (sim : Simulation P R Q) (h : R s u) {f g : Fin 16 → Fin 16 → Result}
    (hP : ∀ r ∈ [ra, rb], Admits P r) (hfg : ∀ a b, P a → P b → Lockstep Q (f a b) (g a b)) :
    Lockstep Q (withRegs ra rb s f) (withRegs ra rb u g) :=
  have hPab := List.forall_mem_cons.mp hP
  sim.withReg h hPab.1 fun a ha =>
    sim.withReg h (hPab.2 rb List.mem_cons_self) fun b hb => hfg a b ha hb

theorem inBounds_iff (sim : Simulation P R Q) (h : R s u) (a : Word) :
    u.inBounds a ↔ s.inBounds a := by
  rw [State.inBounds, State.inBounds, (sim.same h).startAddr, (sim.same h).validMem]

theorem storeThen (sim : Simulation P R Q) (h : R s u) (addr v : Word) {f g : State → Result}
    (hfg : ∀ m, Lockstep Q (f { s with mem := m }) (g { u with mem := m })) :
    Lockstep Q (storeThen s addr v f) (storeThen u addr v g) := by
  by_cases hb : s.inBounds addr
  · rw [storeThen_of_inBounds hb, storeThen_of_inBounds ((sim.inBounds_iff h addr).mpr hb),
      State.withQuad, State.withQuad, (sim.same h).mem]
    exact hfg _
  · rw [storeThen_of_not hb, storeThen_of_not fun hu => hb ((sim.inBounds_iff h addr).mp hu)]
    exact sim.raise h _

theorem loadThen (sim : Simulation P R Q) (h : R s u) (addr : Word) {f g : Word → Result}
    (hfg : ∀ v, Lockstep Q (f v) (g v)) : Lockstep Q (loadThen s addr f) (loadThen u addr g) := by
  by_cases hb : s.inBounds addr
  · rw [loadThen_of_inBounds hb, loadThen_of_inBounds ((sim.inBounds_iff h addr).mpr hb),
      (sim.same h).mem]
    exact hfg _
  · rw [loadThen_of_not hb, loadThen_of_not fun hu => hb ((sim.inBounds_iff h addr).mp hu)]
    exact sim.raise h _

theorem ite (p : Prop) [Decidable p] {x x' y y' : Result} (hx : Lockstep Q x x')
    (hy : Lockstep Q y y') : Lockstep Q (if p then x else y) (if p then x' else y') := by
  split
  · exact hx
  · exact hy

theorem aluResult (sim : Simulation P R Q) (h : R s u) {b : Fin 16} (hb : P b) (r : Word) :
    Lockstep Q (aluResult b r s) (aluResult b r u) :=
  sim.succeed (sim.advance 2 (sim.setFlags _ _ _ (sim.setReg r h hb)))

theorem aluOp (sim : Simulation P R Q) (h : R s u) (f : Word → Word → Word)
    (hP : ∀ r ∈ [ra, rb], Admits P r) :
    Lockstep Q (aluOp f ra rb s) (aluOp f ra rb u) :=
  sim.withRegs h hP fun a b ha hb => by
    rw [sim.reg h ha, sim.reg h hb]
    exact sim.aluResult h hb _

theorem setBothZeroFlags (sim : Simulation P R Q) (h : R s u) :
    R s.setBothZeroFlags u.setBothZeroFlags := by
  have hp := (sim.same h).modqBothZeroFlags
  cases hs : s.modqBothZeroFlags with
  | setZKeepOthers =>
    have hkeep : ({ u with Z := true } : State) = { u with Z := true, S := s.S, O := s.O } := by
      rw [← (sim.same h).S, ← (sim.same h).O]
    rw [setBothZeroFlags_keep hs, setBothZeroFlags_keep (hp.trans hs), hkeep]
    exact sim.setFlags true s.S s.O h
  | zOnly =>
    rw [setBothZeroFlags_only hs, setBothZeroFlags_only (hp.trans hs)]
    exact sim.setFlags true false false h

theorem cmov (sim : Simulation P R Q) (h : R s u) {c c' : Bool} (hc : c' = c)
    (hP : ∀ r ∈ [ra, rb], Admits P r) :
    Lockstep Q (cmov c ra rb s) (cmov c' ra rb u) := by
  subst hc
  refine sim.withRegs h hP fun a b ha hb => sim.succeed (sim.advance 2 ?_)
  rw [sim.reg h ha]
  split
  · exact sim.setReg _ h hb
  · exact h

theorem jump (sim : Simulation P R Q) (h : R s u) {c c' : Bool} (hc : c' = c) (target : Word) :
    Lockstep Q (jump c target s) (jump c' target u) := by
  subst hc
  refine sim.succeed ?_
  split
  · exact sim.transfer target h
  · exact sim.advance 9 h

theorem popStack (sim : Simulation P R Q) (h : R s u) (h4 : P spIndex) :
    R (popStack s) (popStack u) := by
  rw [Machine.popStack, Machine.popStack, sim.reg h h4]
  exact sim.setReg _ h h4

/-- The conditions of the two states agree, since Z and S do. -/
theorem conditions (sim : Simulation P R Q) (h : R s u) :
    u.ccLe = s.ccLe ∧ u.ccL = s.ccL ∧ u.ccE = s.ccE ∧ u.ccNe = s.ccNe ∧ u.ccGe = s.ccGe ∧
      u.ccG = s.ccG := by
  simp only [State.ccLe, State.ccL, State.ccE, State.ccNe, State.ccGe, State.ccG, (sim.same h).Z,
    (sim.same h).S, and_self]

theorem pushAddress (sim : Simulation P R Q) (h : R s u) (h4 : P spIndex) :
    pushAddress u = pushAddress s := by
  rw [Machine.pushAddress, Machine.pushAddress, sim.reg h h4]

theorem returnAddress (sim : Simulation P R Q) (h : R s u) : returnAddress u = returnAddress s := by
  rw [Machine.returnAddress, Machine.returnAddress, (sim.same h).pc]

theorem effectiveAddress (sim : Simulation P R Q) (h : R s u) {b : Fin 16} (hb : P b) (d : Word) :
    effectiveAddress u b d = effectiveAddress s b d := by
  rw [Machine.effectiveAddress, Machine.effectiveAddress, sim.reg h hb]

/-- An instruction whose registers P admits takes related states to related states. -/
theorem exec (sim : Simulation P R Q) (h : R s u) {i : Instr}
    (hi : ∀ a : Fin 16, a.val ∈ usedRegs i → P a) : Lockstep Q (exec i s) (exec i u) := by
  have hreg : ∀ r ∈ i.regFields, Admits P r := fun r hr a ha =>
    hi a (List.mem_append_left _ (List.mem_map.mpr ⟨r, hr, ha⟩))
  obtain ⟨hle, hl, he, hne, hge, hg⟩ := sim.conditions h
  cases i with
  | nop => exact sim.succeed (sim.advance 1 h)
  | halt =>
    exact ⟨_, _, next_inj.mpr rfl, next_inj.mpr rfl, sim.respond _ (sim.keep (sim.setLatch h))⟩
  | jmp target => exact sim.jump h rfl target
  | je target => exact sim.jump h he target
  | jne target => exact sim.jump h hne target
  | jl target => exact sim.jump h hl target
  | jle target => exact sim.jump h hle target
  | jg target => exact sim.jump h hg target
  | jge target => exact sim.jump h hge target
  | irmovq v rb =>
    exact sim.withReg h (hreg _ List.mem_cons_self) fun b hb =>
      sim.succeed (sim.advance 10 (sim.setReg v h hb))
  | rrmovq ra rb =>
    refine sim.withRegs h hreg fun a b ha hb => ?_
    rw [sim.reg h ha]
    exact sim.succeed (sim.advance 2 (sim.setReg _ h hb))
  | rmmovq ra d rb =>
    refine sim.withRegs h hreg fun a b ha hb => ?_
    rw [sim.effectiveAddress h hb, sim.reg h ha]
    exact sim.storeThen h _ _ fun m => sim.succeed (sim.advance 10 (sim.setMem m h))
  | mrmovq d rb ra =>
    have hswap : ∀ r ∈ [ra, rb], Admits P r := fun r hr =>
      hreg r ((List.Perm.swap rb ra []).mem_iff.mp hr)
    refine sim.withRegs h hswap fun a b ha hb => ?_
    rw [sim.effectiveAddress h hb]
    exact sim.loadThen h _ fun v => sim.succeed (sim.advance 10 (sim.setReg v h ha))
  | pushq ra =>
    have h4 : P spIndex := hi spIndex (List.mem_append_right _ List.mem_cons_self)
    refine sim.withReg h (hreg _ List.mem_cons_self) fun a ha => ?_
    rw [sim.reg h h4, sim.pushAddress h h4, sim.reg h ha]
    exact ite _ (sim.raise h _) (sim.storeThen h _ _ fun m =>
      sim.succeed (sim.advance 2 (sim.setReg _ (sim.setMem m h) h4)))
  | popq ra =>
    have h4 : P spIndex := hi spIndex (List.mem_append_right _ List.mem_cons_self)
    refine sim.withReg h (hreg _ List.mem_cons_self) fun a ha => ?_
    rw [sim.reg h h4]
    exact sim.loadThen h _ fun v =>
      sim.succeed (sim.advance 2 (sim.popStack (sim.setReg v h ha) h4))
  | call target =>
    have h4 : P spIndex := hi spIndex (List.mem_append_right _ List.mem_cons_self)
    simp only [Machine.exec, execCall]
    rw [sim.reg h h4, sim.pushAddress h h4, sim.returnAddress h]
    exact ite _ (sim.raise h _) (sim.storeThen h _ _ fun m =>
      sim.succeed (sim.transfer target (sim.setReg _ (sim.setMem m h) h4)))
  | ret =>
    have h4 : P spIndex := hi spIndex (List.mem_append_right _ List.mem_cons_self)
    simp only [Machine.exec, execRet]
    rw [sim.reg h h4]
    exact sim.loadThen h _ fun v => sim.succeed (sim.transfer v (sim.popStack h h4))
  | divq ra rb =>
    refine sim.withRegs h hreg fun a b ha hb => ?_
    rw [sim.reg h ha, sim.reg h hb]
    exact ite _ (sim.raise h _) (ite _ (sim.raise h _) (sim.aluResult h hb _))
  | modq ra rb =>
    refine sim.withRegs h hreg fun a b ha hb => ?_
    rw [sim.reg h ha, sim.reg h hb]
    exact ite _ (ite _ (sim.raise (sim.setBothZeroFlags h) _) (sim.succeed (sim.advance 2 h)))
      (ite _ (sim.raise h _) (sim.aluResult h hb _))
  | addq => exact sim.aluOp h (fun B A => to64 (u64 B + u64 A)) hreg
  | subq => exact sim.aluOp h (fun B A => to64 (u64 B - u64 A)) hreg
  | mulq => exact sim.aluOp h (fun B A => to64 (s64 B * s64 A)) hreg
  | andq | xorq => exact sim.aluOp h _ hreg
  | cmove => exact sim.cmov h he hreg
  | cmovne => exact sim.cmov h hne hreg
  | cmovl => exact sim.cmov h hl hreg
  | cmovle => exact sim.cmov h hle hreg
  | cmovg => exact sim.cmov h hg hreg
  | cmovge => exact sim.cmov h hge hreg

end Simulation

/-! ### The statements -/

/-- Every register is admitted. -/
theorem Simulation.exec_all {R Q : State → State → Prop} {s u : State}
    (sim : Simulation (fun _ => True) R Q) (h : R s u) (i : Instr) :
    Lockstep Q (Machine.exec i s) (Machine.exec i u) := sim.exec h fun _ _ => trivial

/-- From states that differ in H alone the pc writes differ, and nothing else. -/
theorem simulation_latch : Simulation (fun _ => True) (fun s u => u = { s with H := true })
    (fun s u => ∃ p, u = { s with H := true, pc := p }) where
  same h := by subst h; exact ⟨rfl, rfl, rfl, rfl, rfl, rfl, rfl, rfl⟩
  reg h _ := by subst h; rfl
  setReg _ h _ := by subst h; rfl
  setFlags _ _ _ h := by subst h; rfl
  setMem _ h := by subst h; rfl
  setLatch h := by subst h; rfl
  advance _ h := by subst h; exact ⟨_, rfl⟩
  transfer _ h := by subst h; exact ⟨_, rfl⟩
  keep h := by subst h; exact ⟨_, rfl⟩
  respond _ h := by obtain ⟨p, rfl⟩ := h; exact ⟨p, rfl⟩

/-- No operation reads or writes MEM_CAPACITY. -/
theorem simulation_capacity (c : Nat) : Simulation (fun _ => True)
    (fun s u => u = { s with memCapacity := c }) (fun s u => u = { s with memCapacity := c }) where
  same h := by subst h; exact ⟨rfl, rfl, rfl, rfl, rfl, rfl, rfl, rfl⟩
  reg h _ := by subst h; rfl
  setReg _ h _ := by subst h; rfl
  setFlags _ _ _ h := by subst h; rfl
  setMem _ h := by subst h; rfl
  setLatch h := by subst h; rfl
  advance _ h := by subst h; rfl
  transfer _ h := by subst h; rfl
  keep h := h
  respond _ h := by subst h; rfl

/-- A register that is neither read nor written keeps what it holds. -/
theorem simulation_register (r : Fin 16) (v : Word) : Simulation (fun a => a ≠ r)
    (fun s u => u = s.setReg r v) (fun s u => u = s.setReg r v) where
  same h := by subst h; exact ⟨rfl, rfl, rfl, rfl, rfl, rfl, rfl, rfl⟩
  reg h ha := by subst h; simp [ha]
  setReg w h ha := by subst h; exact setReg_comm ha.symm v w
  setFlags _ _ _ h := by subst h; rfl
  setMem _ h := by subst h; rfl
  setLatch h := by subst h; rfl
  advance _ h := by subst h; rfl
  transfer _ h := by subst h; rfl
  keep h := h
  respond _ h := by subst h; rfl

/-- u has other ports than s: other requests, and other responses before those that s has given since. -/
def OtherPorts (since p : List Response) (q : List Line) (s u : State) : Prop :=
  ∃ new, s.rsp = since ++ new ∧ u = { s with req := q, rsp := p ++ new }

/-- Only the response touches a port, and it adds the same response to both. -/
theorem simulation_ports (since p : List Response) (q : List Line) :
    Simulation (fun _ => True) (OtherPorts since p q) (OtherPorts since p q) where
  same h := by obtain ⟨new, -, rfl⟩ := h; exact ⟨rfl, rfl, rfl, rfl, rfl, rfl, rfl, rfl⟩
  reg h _ := by obtain ⟨new, -, rfl⟩ := h; rfl
  setReg _ h _ := by obtain ⟨new, hnew, rfl⟩ := h; exact ⟨new, hnew, rfl⟩
  setFlags _ _ _ h := by obtain ⟨new, hnew, rfl⟩ := h; exact ⟨new, hnew, rfl⟩
  setMem _ h := by obtain ⟨new, hnew, rfl⟩ := h; exact ⟨new, hnew, rfl⟩
  setLatch h := by obtain ⟨new, hnew, rfl⟩ := h; exact ⟨new, hnew, rfl⟩
  advance _ h := by obtain ⟨new, hnew, rfl⟩ := h; exact ⟨new, hnew, rfl⟩
  transfer _ h := by obtain ⟨new, hnew, rfl⟩ := h; exact ⟨new, hnew, rfl⟩
  keep h := h
  respond st h := by
    obtain ⟨new, hnew, rfl⟩ := h
    exact ⟨new ++ [⟨st, none⟩], by simp [hnew], by simp [State.respond]⟩

/-- Settles O34: the two runs stay equal but for H and, from the pc write on, the pc. -/
theorem haltedBlockStillExecutes : Obligations.HaltedBlockStillExecutes := by
  intro i s
  obtain ⟨t, u, ht, hu, p, rfl⟩ :=
    simulation_latch.exec_all (s := { s with H := false }) (u := { s with H := true }) rfl i
  exact ⟨t, _, ht, hu, rfl⟩

/-- Settles O36: the two runs stay equal but for MEM_CAPACITY. -/
theorem capacityHasNoEffect : Obligations.CapacityHasNoEffect := by
  intro i s t c h
  obtain ⟨t', u, ht, hu, rfl⟩ := (simulation_capacity c).exec_all (s := s) rfl i
  rw [← next_inj.mp (h.symm.trans ht)] at hu
  exact hu

/-- Settles O38: the two runs stay equal but for a register that the instruction does not use. -/
theorem unusedRegisterIsInert : Obligations.UnusedRegisterIsInert := by
  intro i s t r v hr h
  obtain ⟨t', u, ht, hu, rfl⟩ := (simulation_register r v).exec (s := s) rfl (i := i)
    fun a ha hr' => hr (hr' ▸ ha)
  rw [← next_inj.mp (h.symm.trans ht)] at hu
  exact hu

/-- Settles O40: the two runs stay equal but for the ports, and each adds the one response of the
instruction. -/
theorem execIgnoresThePorts : Obligations.ExecIgnoresThePorts := by
  intro i s t q p h
  obtain ⟨hreq, r, hrsp⟩ := (effect_of_exec h).answersOnce
  obtain ⟨t', u, ht, hu, new, hnew, rfl⟩ := (simulation_ports s.rsp p q).exec_all (s := s)
    (u := { s with req := q, rsp := p }) ⟨[], by simp, by simp⟩ i
  obtain rfl : t = t' := next_inj.mp (h.symm.trans ht)
  obtain rfl : [r] = new := List.append_cancel_left (hrsp.symm.trans hnew)
  exact ⟨r, hreq, hrsp, hu⟩

end Sys2Proof.Machine
end

section
/-! The statements of 41_nop_halt.md about halt (R89) and of 43_alu.md about mulq, divq and modq (R95, R98,
R99). -/

namespace Sys2Proof

/-! ### Values of the ALU results (43_alu.md R92) -/

/-- The low half of a product does not depend on how the operands are read. -/
theorem to64_mul_s64 (B A : Word) : to64 (s64 B * s64 A) = B * A := by
  rw [to64, BitVec.ofInt_mul, BitVec.ofInt_toInt, BitVec.ofInt_toInt]

end Sys2Proof

namespace Sys2Proof.Machine

variable {s : State}

theorem s64_quotient {B A : Word} (h0 : s64 A ≠ 0) (h : ¬ quotientOverflows B A) :
    s64 (quotient B A) = (s64 B).tdiv (s64 A) := by
  obtain ⟨hlow, hhigh⟩ := tdiv_range B A h0 h
  exact s64_to64 _ hlow hhigh

/-- A remainder is smaller than the divisor, so it fits a word. -/
theorem s64_remainder {B A : Word} (h0 : s64 A ≠ 0) :
    s64 (remainder B A) = s64 B - (s64 B).tdiv (s64 A) * s64 A := by
  obtain ⟨hlt, -⟩ := tdiv_rest (s64 B) (s64 A) h0
  obtain ⟨hlow, hhigh⟩ := s64_range A
  exact s64_to64 _ (by omega) (by omega)

/-! ### An advance and nothing else -/

/-- After an advance and the response OK the pc has advanced, and nothing else has changed. -/
theorem advance_respond_claims (s : State) (n : Nat) :
    let t := (s.advance n).respond .ok
    PcAdvances s t n ∧ KeepsRegs s t [] ∧ KeepsFlags s t ∧ KeepsBytes s t noByte ∧ AnswersOk s t :=
  ⟨pcAdvances_of_pc rfl, fun _ _ => rfl, ⟨rfl, rfl, rfl⟩, fun _ _ => rfl, advance_respond_answersOk n⟩

/-! ### halt -/

/-- Settles O42: halt writes the latch and answers HALTED. -/
theorem haltSetsTheLatchOnly : Obligations.HaltSetsTheLatchOnly := fun s =>
  ⟨({ s with H := true } : State).respond .halted, rfl, rfl, rfl, fun _ _ => rfl, ⟨rfl, rfl, rfl⟩,
    fun _ _ => rfl, ⟨rfl, rfl, rfl, rfl, rfl⟩, rfl, rfl⟩

/-! ### mulq, divq, modq -/

theorem exec_mulq (ra rb : RegIdx) (s : State) :
    exec (.mulq ra rb) s = aluOp (fun B A => to64 (s64 B * s64 A)) ra rb s := rfl

/-- Settles O45: `to64` of the exact product is the product of the words. -/
theorem mulqKeepsTheLowProduct : Obligations.MulqKeepsTheLowProduct := by
  refine ⟨pairRangeFaults_of_aluOp exec_mulq,
    aluCompletes_of_aluOp exec_mulq fun B A => ⟨u64_to64 _, ?_⟩⟩
  rw [to64_mul_s64]
  exact BitVec.toNat_mul B A

section Division

variable {ra rb : RegIdx} {a b : Fin 16} (ha : ra.toNat = a.val) (hb : rb.toNat = b.val)
include ha hb

theorem exec_divq_of_eq : exec (.divq ra rb) s =
    if s64 (s.reg a) = 0 then raise .divZero s
    else if quotientOverflows (s.reg b) (s.reg a) then raise .divOverflow s
    else aluResult b (quotient (s.reg b) (s.reg a)) s := withRegs_of_eq ha hb _

theorem exec_modq_of_eq : exec (.modq ra rb) s =
    if s64 (s.reg a) = 0 then
      if s64 (s.reg b) = 0 then raise .modBothZero s.setBothZeroFlags
      else succeed (s.advance 2)
    else if quotientOverflows (s.reg b) (s.reg a) then raise .divOverflow s
    else aluResult b (remainder (s.reg b) (s.reg a)) s := withRegs_of_eq ha hb _

end Division

/-- Settles O46: the checks come in the order of the rule, and past them the quotient fits a word. -/
theorem divqTruncatesTowardZero : Obligations.DivqTruncatesTowardZero := by
  refine ⟨fun _ _ _ hpair => faults_of_withRegs rfl hpair,
    aluCompletes_of_aluResult (f := quotient) ?exec ?value,
    fun s ra rb a b ha hb => ⟨fun h0 => ?zero, fun hB hA => ?overflow⟩⟩
  case exec =>
    rintro s ra rb a b ha hb ⟨h0, hov⟩
    rw [exec_divq_of_eq ha hb, if_neg h0, if_neg hov]
  case value =>
    rintro B A ⟨h0, hov⟩
    obtain ⟨hlt, hsign⟩ := tdiv_rest (s64 B) (s64 A) h0
    rw [s64_quotient h0 hov]
    exact ⟨_, by ring, hlt, hsign⟩
  case zero =>
    rw [Faults, exec_divq_of_eq ha hb, if_pos h0]
    rfl
  case overflow =>
    rw [Faults, exec_divq_of_eq ha hb, if_neg (by rw [hA]; decide), if_pos ⟨hB, hA⟩]
    rfl

/-- Settles O47: the divisor decides first; past the checks the remainder fits a word. -/
theorem modqRemainderAndZeroDivisors : Obligations.ModqRemainderAndZeroDivisors := by
  refine ⟨fun _ _ _ hpair => faults_of_withRegs rfl hpair,
    aluCompletes_of_aluResult (f := remainder) ?exec ?value,
    fun s ra rb a b ha hb => ⟨fun h0 hB => ?divisor, fun h0 hB hp => ?keep, fun h0 hB hp => ?only,
      fun hB hA => ?overflow⟩⟩
  case exec =>
    rintro s ra rb a b ha hb ⟨h0, hov⟩
    rw [exec_modq_of_eq ha hb, if_neg h0, if_neg hov]
  case value =>
    rintro B A ⟨h0, -⟩
    obtain ⟨hlt, hsign⟩ := tdiv_rest (s64 B) (s64 A) h0
    rw [s64_remainder h0]
    exact ⟨⟨(s64 B).tdiv (s64 A), by ring⟩, hlt, hsign⟩
  case divisor =>
    rw [exec_modq_of_eq ha hb, if_pos h0, if_neg hB]
    exact ⟨_, succeed_eq, advance_respond_claims s 2⟩
  case keep =>
    rw [exec_modq_of_eq ha hb, if_pos h0, if_pos hB, setBothZeroFlags_keep hp]
    rfl
  case only =>
    rw [exec_modq_of_eq ha hb, if_pos h0, if_pos hB, setBothZeroFlags_only hp]
    rfl
  case overflow =>
    rw [Faults, exec_modq_of_eq ha hb, if_neg (by rw [hA]; decide), if_pos ⟨hB, hA⟩]
    rfl

end Sys2Proof.Machine
end

section
/-! The statements of 44_cmov.md and 45_jumps.md, by the truth table of 40_execute_common.md R82. -/

namespace Sys2Proof.Machine

variable {s : State}

section Conditions

variable {at_ : List (Bool × Bool)} {cc : Bool → Bool → Bool}

/-- A conditional move whose condition on (Z, S) holds at exactly the listed values. -/
theorem movesAt_of_cmov {mk : RegIdx → RegIdx → Instr}
    (hexec : ∀ ra rb s, exec (mk ra rb) s = cmov (cc s.Z s.S) ra rb s)
    (hcc : ∀ z n, cc z n = true ↔ (z, n) ∈ at_) : MovesAt mk at_ ∧ PairRangeFaults mk := by
  refine ⟨fun s ra rb a b ha hb => ?moves, fun s ra rb hpair => ?range⟩
  case moves =>
    have hrun : exec (mk ra rb) s = _ := (hexec ra rb s).trans (withRegs_of_eq ha hb _)
    refine ⟨_, hrun, ?_⟩
    cases hc : cc s.Z s.S with
    | true =>
      rw [if_pos ((hcc _ _).mp hc)]
      exact setReg_advance_respond_claims s b (s.reg a) 2
    | false =>
      rw [if_neg fun hmem => Bool.false_ne_true (hc.symm.trans ((hcc _ _).mpr hmem))]
      obtain ⟨hpc, hregs, hframe⟩ := advance_respond_claims s 2
      exact ⟨rfl, hpc, fun r _ => hregs r List.not_mem_nil, hframe⟩
  case range => exact faults_of_withRegs (hexec ra rb s) hpair

theorem transfer_respond_answersOk (target : Word) :
    AnswersOk s ((s.transfer target).respond .ok) :=
  ⟨rfl, ⟨rfl, rfl, rfl, rfl, rfl⟩, rfl, rfl⟩

/-- A jump whose condition on (Z, S) holds at exactly the listed values. -/
theorem jumpsAt_of_jump {mk : Word → Instr}
    (hexec : ∀ target s, exec (mk target) s = jump (cc s.Z s.S) target s)
    (hcc : ∀ z n, cc z n = true ↔ (z, n) ∈ at_) : JumpsAt mk at_ := by
  intro s target
  refine ⟨_, (hexec target s).trans (jump_eq _ _), ?_⟩
  cases hc : cc s.Z s.S with
  | true =>
    have hmem := (hcc _ _).mp hc
    exact ⟨fun _ => pcTransfers_of_pc rfl, fun hno => absurd hmem hno, fun _ _ => rfl,
      ⟨rfl, rfl, rfl⟩, fun _ _ => rfl, transfer_respond_answersOk target⟩
  | false =>
    have hno : (s.Z, s.S) ∉ at_ := fun hmem =>
      Bool.false_ne_true (hc.symm.trans ((hcc _ _).mpr hmem))
    obtain ⟨hpc, hframe⟩ := advance_respond_claims s 9
    exact ⟨fun hmem => absurd hmem hno, fun _ => hpc, hframe⟩

end Conditions

/-- Settles O48: the six conditions, each evaluated at the four values of (Z, S). -/
theorem conditionalMovesFollowTheTruthTable : Obligations.ConditionalMovesFollowTheTruthTable :=
  ⟨movesAt_of_cmov (cc := fun z n => z && !n) (fun _ _ _ => rfl) (by decide),
    movesAt_of_cmov (cc := fun z _ => !z) (fun _ _ _ => rfl) (by decide),
    movesAt_of_cmov (cc := fun z n => n && !z) (fun _ _ _ => rfl) (by decide),
    movesAt_of_cmov (cc := fun z n => z || n) (fun _ _ _ => rfl) (by decide),
    movesAt_of_cmov (cc := fun z n => !n && !z) (fun _ _ _ => rfl) (by decide),
    movesAt_of_cmov (cc := fun z n => z || !n) (fun _ _ _ => rfl) (by decide)⟩

/-- Settles O49: jmp's condition is constant, and the others are evaluated at the four values of (Z, S). -/
theorem jumpsFollowTheTruthTable : Obligations.JumpsFollowTheTruthTable :=
  ⟨jumpsAt_of_jump (cc := fun _ _ => true) (fun _ _ => rfl) (by decide),
    jumpsAt_of_jump (cc := fun z n => z && !n) (fun _ _ => rfl) (by decide),
    jumpsAt_of_jump (cc := fun z _ => !z) (fun _ _ => rfl) (by decide),
    jumpsAt_of_jump (cc := fun z n => n && !z) (fun _ _ => rfl) (by decide),
    jumpsAt_of_jump (cc := fun z n => z || n) (fun _ _ => rfl) (by decide),
    jumpsAt_of_jump (cc := fun z n => !n && !z) (fun _ _ => rfl) (by decide),
    jumpsAt_of_jump (cc := fun z n => z || !n) (fun _ _ => rfl) (by decide)⟩

end Sys2Proof.Machine
end

section
/-! The statements of 20_memory.md R47, R48, of 46_load_store.md and of 47_stack_call.md. -/

namespace Sys2Proof.Machine

variable {s t : State}

/-! ### A quad written (20_memory.md R48) -/

@[simp] theorem withQuad_mem (a v : Word) :
    (s.withQuad a v).mem = s.mem.writeBytes (u64 a) (quadBytes v) := rfl

/-- The claims speak of a quad's place as the bounds check does. -/
theorem quadInWindow_iff (a : Word) : QuadInWindow s (u64 a) ↔ s.inBounds a := Iff.rfl

theorem memRead_eq_none_iff (a : Word) : s.memRead a = none ↔ ¬ s.inBounds a := by
  by_cases hb : s.inBounds a
  · simp [memRead_of_inBounds hb, hb]
  · simp [memRead_of_not hb, hb]

theorem memWrite_eq_none_iff (a v : Word) : s.memWrite a v = none ↔ ¬ s.inBounds a := by
  by_cases hb : s.inBounds a
  · simp [memWrite_of_inBounds hb, hb]
  · simp [memWrite_of_not hb, hb]

/-- A write that succeeds was in bounds, and leaves the state with the quad. -/
theorem of_memWrite_eq_some {a v : Word} (h : s.memWrite a v = some t) :
    s.inBounds a ∧ t = s.withQuad a v := by
  by_cases hb : s.inBounds a
  · rw [memWrite_of_inBounds hb] at h
    exact ⟨hb, (Option.some.inj h).symm⟩
  · rw [memWrite_of_not hb] at h
    cases h

/-- Settles O52: both accesses turn on the bounds check alone, and the bytes written are those read. -/
theorem memReadReturnsTheLastWrite : Obligations.MemReadReturnsTheLastWrite := by
  intro s a v hwf
  refine ⟨memWrite_eq_none_iff a v, memRead_eq_none_iff a, fun t ht => ?_⟩
  have hwf' := memWrite_wf hwf ht
  obtain ⟨hb, rfl⟩ := of_memWrite_eq_some ht
  have hread : (s.withQuad a v).memRead a = some v := by
    rw [memRead_of_inBounds (s := s.withQuad a v) hb, withQuad_mem, readQuad_writeBytes hwf]
  exact ⟨hwf', hread, holdsQuad_of_writeBytes hwf rfl, keepsBytes_of_writeBytes hwf rfl, rfl⟩

/-! ### rmmovq and mrmovq (46_load_store.md R114, R115) -/

section Operands

variable {ra rb : RegIdx} {a b : Fin 16}

theorem exec_rmmovq_of_eq (ha : ra.toNat = a.val) (hb : rb.toNat = b.val) (d : Word) :
    exec (.rmmovq ra d rb) s = storeThen s (effectiveAddress s b d) (s.reg a) fun s' =>
      succeed (s'.advance 10) := withRegs_of_eq ha hb _

theorem exec_mrmovq_of_eq (ha : ra.toNat = a.val) (hb : rb.toNat = b.val) (d : Word) :
    exec (.mrmovq d rb ra) s = loadThen s (effectiveAddress s b d) fun v =>
      succeed ((s.setReg a v).advance 10) := withRegs_of_eq ha hb _

theorem exec_pushq_of_eq (ha : ra.toNat = a.val) : exec (.pushq ra) s =
    if u64 (s.reg 4) < 8 then raise .pushSpGuard s
    else storeThen s (pushAddress s) (s.reg a) fun s' =>
      succeed ((s'.setReg 4 (pushAddress s)).advance 2) := withReg_of_eq ha _

theorem exec_popq_of_eq (ha : ra.toNat = a.val) : exec (.popq ra) s =
    loadThen s (s.reg 4) fun v => succeed ((popStack (s.setReg a v)).advance 2) := withReg_of_eq ha _

end Operands

/-- Settles O50: past regcheck rmmovq is one store at the effective address. -/
theorem rmmovqStoresTheQuad : Obligations.RmmovqStoresTheQuad := by
  refine ⟨fun s ra rb d hpair => faults_of_withRegs rfl hpair, fun s ra rb d a b ea ha hb hea => ?_⟩
  obtain rfl : ea = u64 (effectiveAddress s b d) := hea.trans (u64_effectiveAddress b d).symm
  rw [quadInWindow_iff, Faults, exec_rmmovq_of_eq ha hb]
  refine ⟨fun hout => ?fault, fun hin hwf => ?store⟩
  case fault =>
    rw [storeThen_of_not hout]
    rfl
  case store =>
    rw [storeThen_of_inBounds hin]
    exact ⟨_, succeed_eq, holdsQuad_of_writeBytes hwf rfl, keepsBytes_of_writeBytes hwf rfl,
      fun _ _ => rfl, ⟨rfl, rfl, rfl⟩, pcAdvances_of_pc rfl,
      advance_respond_answersOk (s := s.withQuad _ _) 10⟩

/-- Settles O51: past regcheck mrmovq is one load at the effective address, formed before the write. -/
theorem mrmovqLoadsTheQuad : Obligations.MrmovqLoadsTheQuad := by
  refine ⟨fun s ra rb d hpair => faults_of_withRegs rfl hpair, fun s ra rb d a b ea ha hb hea => ?_⟩
  obtain rfl : ea = u64 (effectiveAddress s b d) := hea.trans (u64_effectiveAddress b d).symm
  rw [quadInWindow_iff, Faults, exec_mrmovq_of_eq ha hb]
  refine ⟨fun hout => ?fault, fun hin => ?load⟩
  case fault =>
    rw [loadThen_of_not hout]
    rfl
  case load =>
    rw [loadThen_of_inBounds hin]
    obtain ⟨hreg, hpc, hregs, hflags, hbytes, hok⟩ := setReg_advance_respond_claims s a
      (s.mem.readQuad (u64 (effectiveAddress s b d))) 10
    refine ⟨_, succeed_eq, ?_, hregs, hflags, hbytes, hpc, hok⟩
    rw [hreg]
    exact holdsQuad_readQuad _

/-! ### Stack operations (47_stack_call.md) -/

theorem popStack_reg (r : Fin 16) :
    (popStack s).reg r = if r = 4 then to64 (u64 (s.reg 4) + 8) else s.reg r := setReg_reg _ _ _ _

/-- The stack pointer after pushq or call, x[4] - 8, is in the window where the stack has room. -/
theorem pushAddress_inBounds (h8 : 8 ≤ u64 (s.reg 4)) (hlow : u64 s.startAddr ≤ u64 (s.reg 4) - 8)
    (hhigh : u64 (s.reg 4) ≤ u64 s.startAddr + u64 s.validMem) : s.inBounds (pushAddress s) := by
  rw [State.inBounds, u64_pushAddress_of_le h8]
  exact ⟨hlow, by omega⟩

theorem exec_call (target : Word) : exec (.call target) s =
    if u64 (s.reg 4) = 0 then raise .callSpZero s
    else storeThen s (pushAddress s) (returnAddress s) fun s' =>
      succeed ((s'.setReg 4 (pushAddress s)).transfer target) := rfl

theorem exec_ret : exec .ret s =
    loadThen s (s.reg 4) fun v => succeed ((popStack s).transfer v) := rfl

/-- The state that pushq and call leave before the pc write: a quad stored, and x[4] at it. -/
def pushed (s : State) (v : Word) : State := (s.withQuad (pushAddress s) v).setReg 4 (pushAddress s)

theorem pushed_keepsRegs (v : Word) : KeepsRegs s (pushed s v) [4] :=
  keepsRegs_of_set (v := pushAddress s) rfl

/-- Settles O54: the checks in their order, and past them the store and the write of x[4]. -/
theorem pushqStoresBelowTheStackPointer : Obligations.PushqStoresBelowTheStackPointer := by
  refine ⟨fun s ra hr => faults_of_withReg rfl hr, fun s ra a ha => ?_⟩
  rw [Faults, Faults, exec_pushq_of_eq ha]
  refine ⟨fun hlt => ?guard, fun h8 hout => ?fault, fun h8 hin hwf => ?push⟩
  case guard =>
    rw [if_pos hlt]
    rfl
  case fault =>
    rw [← u64_pushAddress_of_le h8, quadInWindow_iff] at hout
    rw [if_neg (by omega), storeThen_of_not hout]
    rfl
  case push =>
    rw [← u64_pushAddress_of_le h8] at hin ⊢
    rw [if_neg (by omega), storeThen_of_inBounds hin]
    refine ⟨_, succeed_eq, holdsQuad_of_writeBytes hwf rfl, ?_, keepsBytes_of_writeBytes hwf rfl,
      pushed_keepsRegs _, ⟨rfl, rfl, rfl⟩, pcAdvances_of_pc rfl,
      advance_respond_answersOk (s := pushed s (s.reg a)) 2⟩
    simp

/-- Settles O55: past regcheck popq is one load at x[4], then the two register writes. -/
theorem popqLoadsAtTheStackPointer : Obligations.PopqLoadsAtTheStackPointer := by
  refine ⟨fun s ra hr => faults_of_withReg rfl hr, fun s ra a ha => ?_⟩
  rw [quadInWindow_iff, Faults, exec_popq_of_eq ha]
  refine ⟨fun hout => ?fault, fun hin => ?pop⟩
  case fault =>
    rw [loadThen_of_not hout]
    rfl
  case pop =>
    rw [loadThen_of_inBounds hin]
    refine ⟨_, _, succeed_eq, holdsQuad_readQuad _, ?other, ?sp, ?regs, ⟨rfl, rfl, rfl⟩,
      fun _ _ => rfl, pcAdvances_of_pc rfl, advance_respond_answersOk (s := popStack (s.setReg a _)) 2⟩
    case other =>
      intro h4
      simp only [respond_reg, advance_reg, popStack_reg, setReg_reg, if_neg h4, if_neg h4.symm, if_pos]
      exact ⟨trivial, u64_to64_add _ 8⟩
    case sp =>
      rintro rfl
      simp only [respond_reg, advance_reg, popStack_reg, setReg_reg, if_pos]
      exact u64_to64_add _ 8
    case regs =>
      intro r hr
      obtain ⟨hra, hr4⟩ : r ≠ a ∧ r ≠ 4 := by simpa using hr
      simp [popStack_reg, hra, hr4]

/-- Settles O56: the guard, the bounds check, and past them the store, the write of x[4] and the transfer. -/
theorem callPushesTheReturnAddress : Obligations.CallPushesTheReturnAddress := by
  intro s target q hq
  obtain rfl : q = u64 (pushAddress s) := hq.trans u64_pushAddress.symm
  rw [Faults, Faults, exec_call, quadInWindow_iff]
  refine ⟨fun h0 => ?guard, fun h0 hout => ?fault, fun h0 hin hwf => ?call⟩
  case guard =>
    rw [if_pos h0]
    rfl
  case fault =>
    rw [if_neg h0, storeThen_of_not hout]
    rfl
  case call =>
    rw [if_neg h0, storeThen_of_inBounds hin]
    refine ⟨_, returnAddress s, succeed_eq, u64_returnAddress, holdsQuad_of_writeBytes hwf rfl, ?_,
      pcTransfers_of_pc rfl, keepsBytes_of_writeBytes hwf rfl, pushed_keepsRegs _, ⟨rfl, rfl, rfl⟩,
      transfer_respond_answersOk (s := pushed s (returnAddress s)) target⟩
    simp

/-- Settles O57: ret is one load at x[4], then the write of x[4] and the transfer. -/
theorem retTransfersToThePoppedQuad : Obligations.RetTransfersToThePoppedQuad := by
  intro s
  rw [quadInWindow_iff, Faults, exec_ret]
  refine ⟨fun hout => ?fault, fun hin => ?ret⟩
  case fault =>
    rw [loadThen_of_not hout]
    rfl
  case ret =>
    rw [loadThen_of_inBounds hin]
    refine ⟨_, _, succeed_eq, holdsQuad_readQuad _, pcTransfers_of_pc rfl, ?_,
      keepsRegs_of_set (v := to64 (u64 (s.reg 4) + 8)) rfl, ⟨rfl, rfl, rfl⟩, fun _ _ => rfl,
      transfer_respond_answersOk (s := popStack s) _⟩
    rw [respond_reg, transfer_reg, popStack_reg, if_pos rfl]
    exact u64_to64_add _ 8

/-- Settles O60: x[4] - 8 wraps to the top of the address space, past which no admitted window reaches; and a
window below 8 bytes holds no quad. -/
theorem lowStackPointerOrTinyWindowFails : Obligations.LowStackPointerOrTinyWindowFails := by
  refine ⟨fun s target hinv hlow hhigh => ?call, fun s a v hvalid => ?tiny⟩
  case call =>
    obtain ⟨-, hbounds, -⟩ := callPushesTheReturnAddress s target _ rfl
    refine hbounds (by omega) fun hin => ?_
    have hfits := hinv.window_fits
    obtain ⟨-, hend⟩ := hin
    omega
  case tiny =>
    have hout : ¬ s.inBounds a := fun hin => by
      obtain ⟨hstart, hend⟩ := hin
      omega
    exact ⟨memRead_of_not hout, memWrite_of_not hout⟩

/-! ### What is pushed is popped (70_reset_and_hazards.md R143) -/

theorem pushed_reg (v : Word) (r : Fin 16) :
    (pushed s v).reg r = if r = 4 then pushAddress s else s.reg r := setReg_reg _ _ _ _

/-- t stands where pushq or call has pushed v from s: the quad in memory, x[4] at it, the window as it was. -/
structure HasPushed (s t : State) (v : Word) : Prop where
  startAddr : t.startAddr = s.startAddr
  validMem : t.validMem = s.validMem
  mem : t.mem = (pushed s v).mem
  reg : ∀ r, t.reg r = (pushed s v).reg r

theorem HasPushed.reg_four {v : Word} (h : HasPushed s t v) : t.reg 4 = pushAddress s := by
  rw [h.reg, pushed_reg, if_pos rfl]

/-- A load at the stack top reads the quad that was pushed there. -/
theorem HasPushed.loadThen {v : Word} (h : HasPushed s t v) (hwf : Memory.wf s.mem)
    (hin : s.inBounds (pushAddress s)) (f : Word → Result) : loadThen t (t.reg 4) f = f v := by
  have hin' : t.inBounds (pushAddress s) := by
    rw [State.inBounds, h.startAddr, h.validMem]
    exact hin
  have hquad : t.mem.readQuad (u64 (pushAddress s)) = v := by
    rw [h.mem]
    exact readQuad_writeBytes hwf _ v
  rw [h.reg_four, loadThen_of_inBounds hin', hquad]

/-- Raising x[4] by 8 undoes the lowering. -/
theorem to64_pushAddress_add (h8 : 8 ≤ u64 (s.reg 4)) :
    to64 (u64 (pushAddress s) + 8) = s.reg 4 := by
  have hsum : (u64 (pushAddress s) : Int) + 8 = (u64 (s.reg 4) : Nat) := by
    rw [u64_pushAddress_of_le h8]
    omega
  rw [hsum, to64_nat, BitVec.ofNat_toNat, BitVec.setWidth_eq]

/-- After a pop from where the push left x[4], x[4] is back. -/
theorem popStack_reg_of_pushAddress (h4 : t.reg 4 = pushAddress s) (h8 : 8 ≤ u64 (s.reg 4)) :
    (popStack t).reg 4 = s.reg 4 := by
  rw [popStack_reg, if_pos rfl, h4, to64_pushAddress_add h8]

theorem popStack_reg_of_ne {r : Fin 16} (hr : r ≠ 4) : (popStack t).reg r = t.reg r := by
  rw [popStack_reg, if_neg hr]

theorem HasPushed.reg_of_ne {v : Word} (h : HasPushed s t v) {r : Fin 16} (hr : r ≠ 4) :
    t.reg r = s.reg r := by
  rw [h.reg, pushed_reg, if_neg hr]

theorem transfer_pc_of_running (hH : s.H = false) (target : Word) :
    (s.transfer target).pc = target := by
  simp [hH]

/-- Settles O58: ret loads the return address that call stored, and x[4] goes down and up by 8. -/
theorem callThenRetComesBack : Obligations.CallThenRetComesBack := by
  intro s target hwf hH h8 hlow hhigh
  have hin := pushAddress_inBounds h8 hlow hhigh
  have hcall : exec (.call target) s =
      .next (((pushed s (returnAddress s)).transfer target).respond .ok) := by
    rw [exec_call, if_neg (by omega), storeThen_of_inBounds hin]
    rfl
  have hpushed : HasPushed s (((pushed s (returnAddress s)).transfer target).respond .ok)
      (returnAddress s) := ⟨rfl, rfl, rfl, fun _ => rfl⟩
  have hret := exec_ret.trans (hpushed.loadThen hwf hin _)
  refine ⟨_, _, hcall, ?target, hret, ?pc, ?regs, ⟨rfl, rfl, rfl⟩⟩
  case target => exact transfer_pc_of_running (s := pushed s (returnAddress s)) hH target
  case pc =>
    rw [respond_pc, transfer_pc_of_running]
    · exact u64_returnAddress
    · exact hH
  case regs =>
    intro r _
    by_cases hr : r = 4
    · subst hr
      exact popStack_reg_of_pushAddress hpushed.reg_four h8
    · exact (popStack_reg_of_ne hr).trans (hpushed.reg_of_ne hr)

/-- Settles O59: popq loads the quad that pushq stored, and writes it to a register other than x[4], which
goes down and up by 8. -/
theorem pushThenPopMovesTheRegister : Obligations.PushThenPopMovesTheRegister := by
  intro s ra rb a b ha hb hb4 hwf h8 hlow hhigh
  have hin := pushAddress_inBounds h8 hlow hhigh
  have hpush : exec (.pushq ra) s = .next (((pushed s (s.reg a)).advance 2).respond .ok) := by
    rw [exec_pushq_of_eq ha, if_neg (by omega), storeThen_of_inBounds hin]
    rfl
  have hpushed : HasPushed s (((pushed s (s.reg a)).advance 2).respond .ok) (s.reg a) :=
    ⟨rfl, rfl, rfl, fun _ => rfl⟩
  have hpop := (exec_popq_of_eq hb).trans (hpushed.loadThen hwf hin _)
  refine ⟨_, _, hpush, hpop, ?value, ?regs, ⟨rfl, rfl, rfl⟩⟩
  case value => exact (popStack_reg_of_ne hb4).trans (by simp)
  case regs =>
    intro r hr
    have hrb : r ≠ b := by simpa using hr
    by_cases hr4 : r = 4
    · subst hr4
      exact popStack_reg_of_pushAddress (by rw [setReg_reg, if_neg hrb, hpushed.reg_four]) h8
    · exact (popStack_reg_of_ne hr4).trans (by rw [setReg_reg, if_neg hrb, hpushed.reg_of_ne hr4])

end Sys2Proof.Machine
end

section
/-! The statements about reset (70_reset_and_hazards.md R140, 00_scope.md R9). -/

namespace Sys2Proof.Machine

variable {c : Cfg} {r : ResetInputs} {s : State}

theorem rst_of_admitted (h : admitted c r) : rst c r = .next (bootState c r) := if_pos h

theorem rst_of_not_admitted (h : ¬ admitted c r) : rst c r = .refused .configNotAdmitted := if_neg h

/-- What reset answers, it answers for an admitted configuration. -/
theorem of_rst_eq_next (h : rst c r = .next s) : admitted c r ∧ s = bootState c r := by
  by_cases ha : admitted c r
  · rw [rst_of_admitted ha] at h
    exact ⟨ha, (next_inj.mp h).symm⟩
  · rw [rst_of_not_admitted ha] at h
    cases h

/-- Settles O1: the state loaded names each input, and the bytes of RESET_MEM are written in their order. -/
theorem rstLoadsEveryResetInput : Obligations.RstLoadsEveryResetInput := fun _ _ h =>
  ⟨_, rst_of_admitted h, rfl, rfl, rfl, rfl, rfl, rfl, rfl, rfl, rfl, rfl, rfl, rfl, rfl,
    Memory.read_writeBytes_inside Memory.wf_nil _ _⟩

/-- Settles O2: reset is refused exactly where one of the three conditions of an admitted reset fails. -/
theorem rstRefusesExactlyOtherConfigurations : Obligations.RstRefusesExactlyOtherConfigurations := by
  intro c r
  by_cases ha : admitted c r
  · obtain ⟨hcap, hwindow, hlen⟩ := ha
    rw [rst_of_admitted ⟨hcap, hwindow, hlen⟩]
    exact ⟨nofun, fun hno => by omega⟩
  · rw [rst_of_not_admitted ha]
    refine ⟨fun _ => ?_, fun _ => rfl⟩
    by_contra hno
    exact ha ⟨by omega, by omega, by omega⟩

/-- Writing bytes that an unlisted address reads as lists nothing. -/
theorem writeBytes_nil_unlisted (a n : Nat) :
    Memory.writeBytes [] a (List.replicate n Config.unlistedByte) = [] := by
  induction n generalizing a with
  | zero => rfl
  | succ n ih => exact ih (a + 1)

/-- Settles O3: the named inputs are admitted, and RESET_MEM of zeros lists no byte. -/
theorem resetStateIsRstOfNamedInputs : Obligations.ResetStateIsRstOfNamedInputs := by
  refine (rst_of_admitted ⟨by decide, by decide, List.length_replicate⟩).trans ?_
  rw [bootState, show (0 : Byte) = Config.unlistedByte from rfl, writeBytes_nil_unlisted]
  rfl

/-- Settles O5: the bytes loaded are those of the window, and the rest of the invariant is what admits the
configuration. -/
theorem everyRstMeetsInvariant : Obligations.EveryRstMeetsInvariant := by
  intro c r s h
  obtain ⟨⟨hcap, hwindow, hlen⟩, rfl⟩ := of_rst_eq_next h
  refine ⟨Memory.wf_writeBytes Memory.wf_nil _ _, fun cell hcell => ?_, hcap, hwindow, rfl, nofun⟩
  rcases Memory.mem_writeBytes hcell with ⟨hlow, hhigh⟩ | hnil
  · rw [hlen] at hhigh
    exact ⟨hlow, hhigh⟩
  · cases hnil

/-- Settles O4: State.reset is an admitted reset. -/
theorem resetStateMeetsInvariant : Obligations.ResetStateMeetsInvariant :=
  everyRstMeetsInvariant _ _ _ resetStateIsRstOfNamedInputs

end Sys2Proof.Machine
end

section
/-! The statements about steps without a request and runs over the waiting requests (70_reset_and_hazards.md
R141, R150; log 2). -/

namespace Sys2Proof.Machine

variable {s t : State}

theorem step_of_idle (h : s.req = []) : step s = .next s := by
  simp only [step, nextRequest, h]

/-- Settles O22: an idle step changes nothing, and a request is processed to its end. -/
theorem stepNeverStops : Obligations.StepNeverStops := by
  refine ⟨fun s => ?_, fun s => step_of_idle⟩
  cases hs : s.req with
  | nil => exact ⟨s, step_of_idle hs⟩
  | cons line later =>
    rw [step_of_waiting hs]
    exact transact_completes _ line

/-- The lines still waiting have no bearing on a request. -/
theorem transact_with_req {line : Line} (q : List Line) (h : transact s line = .next t) :
    transact { s with req := q } line = .next { t with req := q } := by
  by_cases hd : isDump line = true
  · rw [transact_of_dump hd, next_inj] at h ⊢
    rw [← h]
    rfl
  · cases hk : decode line with
    | error k =>
      rw [transact_of_decode_error hd hk, next_inj] at h ⊢
      rw [← h]
      rfl
    | ok i =>
      rw [transact_of_decode_ok hk] at h ⊢
      obtain ⟨r, -, hrsp, hexec⟩ := execIgnoresThePorts i s t q s.rsp h
      rw [← hrsp] at hexec
      exact hexec

theorem run_succ {n : Nat} (h : step s = .next t) : core.run (n + 1) s = core.run n t := by
  have hcore : core.step s = .next t := h
  simp only [Host.Core.run, hcore]

theorem serve_cons {line : Line} {later : List Line} (h : transact s line = .next t) :
    serve s (line :: later) = serve t later := by
  rw [serve, h]

/-- Settles O23, by induction on the waiting lines: one step is transact on the oldest line, and the lines
after it do not bear on it. -/
theorem runServesEveryWaitingRequest : Obligations.RunServesEveryWaitingRequest := by
  intro lines
  induction lines with
  | nil =>
    intro s hs
    have hsame : ({ s with req := [] } : State) = s := by rw [← hs]
    exact ⟨s, rfl, congrArg Host.Outcome.next hsame, hs, rfl⟩
  | cons line later ih =>
    intro s hs
    obtain ⟨t, r, hstep, hreq, hrsp⟩ := eachRequestHasOneResponse s line later hs
    obtain ⟨u, hrun, hserve, hempty, hlen⟩ := ih t hreq
    have htransact := transact_with_req [] ((step_of_waiting hs).symm.trans hstep)
    refine ⟨u, (run_succ hstep).trans hrun, (serve_cons htransact).trans hserve, hempty, ?_⟩
    simp only [hlen, hrsp, List.length_append, List.length_cons, List.length_nil]
    omega

end Sys2Proof.Machine
end

section
/-! The statements of 60_exceptions.md about codes and text (R123, R136, R137), and the vectors of
95_test_vectors.md. -/

namespace Sys2Proof.Machine

/-! ### Status codes (60_exceptions.md R123) -/

/-- Every outcome of the table. -/
def allStatuses : List Status :=
  [.ok, .halted, .dump] ++
  [DecodeFault.emptyLine, .unknownMnemonic, .operandCount, .invalidRegister, .invalidImmediate,
    .invalidDisplacement].map .decodeFault ++
  [ExecFault.regRange, .memBounds, .pushSpGuard, .callSpZero, .divZero, .modBothZero,
    .divOverflow].map .execFault

theorem mem_allStatuses (a : Status) : a ∈ allStatuses := by
  cases a with
  | ok | halted | dump => decide
  | decodeFault k => cases k <;> decide
  | execFault k => cases k <;> decide

/-- Settles O24: the table's sixteen outcomes are all there are, and their codes are compared pair by pair. -/
theorem statusCodesAreDistinct : Obligations.StatusCodesAreDistinct := by
  have hdistinct : ∀ a ∈ allStatuses, ∀ b ∈ allStatuses, a.code = b.code → a = b := by decide
  have hlisted : ∀ a ∈ allStatuses, a.code.toNat ∈
      [0x00, 0x01, 0x02, 0x10, 0x11, 0x12, 0x13, 0x14, 0x15, 0x20, 0x21, 0x22, 0x23, 0x24, 0x25,
        0x26] := by decide
  exact ⟨fun a b => hdistinct a (mem_allStatuses a) b (mem_allStatuses b),
    fun a => hlisted a (mem_allStatuses a)⟩

/-! ### The text of a snapshot (60_exceptions.md R136, R137) -/

theorem hexDigit_eq : ∀ n : BitVec 4, some (hexDigit n) =
    (chars ['0', '1', '2', '3', '4', '5', '6', '7', '8', '9', 'a', 'b', 'c', 'd', 'e', 'f'])[
      n.toNat]? := by decide

theorem toNat_nibble (v : Word) (j : Nat) : (v.extractLsb' (4 * j) 4).toNat = u64 v / 16 ^ j % 16 := by
  rw [BitVec.extractLsb'_toNat, Nat.shiftRight_eq_div_pow, pow_mul]
  norm_num

theorem getElem?_hexWord (v : Word) {k : Nat} (hk : k < 16) :
    (hexWord v)[k]? = some (hexDigit (v.extractLsb' (4 * (15 - k)) 4)) := by
  rw [hexWord, List.getElem?_map, List.getElem?_range hk, Option.map_some]

/-- The names of the register lines, in the order of the registers. -/
theorem registerNames_eq : (List.finRange 16).map (fun i => 0x72 :: decimal i.val) =
    [chars ['r', '0'], chars ['r', '1'], chars ['r', '2'], chars ['r', '3'], chars ['r', '4'],
      chars ['r', '5'], chars ['r', '6'], chars ['r', '7'], chars ['r', '8'], chars ['r', '9'],
      chars ['r', '1', '0'], chars ['r', '1', '1'], chars ['r', '1', '2'], chars ['r', '1', '3'],
      chars ['r', '1', '4'], chars ['r', '1', '5']] := by decide

theorem vector_toList_eq_map (x : Vector Word 16) :
    x.toList = (List.finRange 16).map fun i => x[i] := by
  apply List.ext_getElem <;> simp

theorem snapshotLines_eq (p : Snapshot) :
    snapshotLines p = (specSnapshotText p).map fun l => l.1 ++ chars [':', ' '] ++ l.2 := by
  rw [specSnapshotText, ← registerNames_eq, vector_toList_eq_map, List.map_map, List.zip_map',
    List.map_append, List.map_map]
  rfl

theorem length_snapshotLines (p : Snapshot) : (snapshotLines p).length = 20 := by
  rw [snapshotLines, List.length_append, List.length_map, List.length_finRange]
  rfl

/-- Settles O25: digit by digit, flag by flag, and line by line. -/
theorem snapshotTextDigits : Obligations.SnapshotTextDigits := by
  refine ⟨fun v => ⟨by simp [hexWord], fun k hk => ?digit⟩, fun p => ?text⟩
  case digit => rw [getElem?_hexWord v hk, hexDigit_eq, toNat_nibble]
  case text =>
    refine ⟨?_, ?_, ?_, ?_, ?_, ?_, ?_, ?_, length_snapshotLines p, snapshotLines_eq p⟩ <;>
      (intro hO hS hZ; rw [flagSummary, hO, hS, hZ]; rfl)

/-! ### Vectors -/

/-- Settles O10: the lines and bundles, evaluated. -/
theorem vectorLinesDecodeAsWritten : Obligations.VectorLinesDecodeAsWritten := by
  unfold Obligations.VectorLinesDecodeAsWritten
  decide

end Sys2Proof.Machine
end
